-- ==== Sys2Proof/Word.lean ====
section
/-! DEFINITION. The word types of VHC64: every quantity of the block is an unsigned 64-bit word or a
pair of them (00_scope.md R10, 40_arith_kernel.md R123). -/

namespace Sys2Proof

/-- A 64-bit word: a register, a beat of a stream, a message or key word (00_scope.md R10). -/
abbrev Word := BitVec 64

/-- A message byte (20_memory.md R67). -/
abbrev Byte := BitVec 8

/-- A 128-bit quantity `(hi, lo)`, the high word first (00_scope.md R10). -/
abbrev DWord := Word × Word

/-- The number `hi·2^64 + lo` that a pair stands for (00_scope.md R10). -/
def pairValue (p : DWord) : Nat := p.1.toNat * 2 ^ 64 + p.2.toNat

end Sys2Proof
end

