-- ==== Sys2Proof/Config.lean ====
section
/-! DEFINITION. The constants of 00_scope.md R7, the decided values of the sizes of R8, and the configuration
record of R8 with its instance parameters, the OPEN parameter and the three switches (R8, R9). The configurations
themselves are the presets of Sys2Proof/Machine/Params.lean. -/

namespace Sys2Proof.Config

/-- The 64-bit prime `2^64 − 257` (00_scope.md R7). -/
def p64 : Word := 0xFFFFFFFFFFFFFEFF#64

/-- The mask applied to each 64-bit half of the polynomial key (R7). -/
def mpoly : Word := 0x1FFFFFFF1FFFFFFF#64

/-- `2^127 − 1` (R7). -/
def p127 : Nat := 2 ^ 127 - 1

/-- `2^64 − 2^32` (R7). -/
def d64 : Word := 0xFFFFFFFF00000000#64

/-- `2^63 − 1` (R7). -/
def m63 : Word := 0x7FFFFFFFFFFFFFFF#64

/-- `2^62 − 1` (R7; 45_hash_pipeline.md R196). -/
def m62 : Word := 0x3FFFFFFFFFFFFFFF#64

/-- `2^64 − 1` (R7). -/
def m64 : Word := 0xFFFFFFFFFFFFFFFF#64

/-- The decided value of `NHBYTES`, the chunk size in bytes (R8, decision D2; log 8). -/
abbrev nhBytes : Nat := 128

/-- `NHWORDS` at the decided value: the chunk size in 64-bit words (R8). -/
abbrev nhWords : Nat := nhBytes / 8

/-- The decided value of `NH_EXTRA`, the extra NH lanes (R8, decision D3; log 8). -/
abbrev nhExtra : Nat := 0

/-- `NK` at the decided values: the number of NH key words (R8). -/
abbrev nk : Nat := nhWords + 2 * nhExtra

/-- Hash contexts in one instance (R8, decision D22): State holds one set of per-call registers. -/
abbrev nctx : Nat := 1

/-- How a partial chunk with no full chunk before it is folded: the switch `PARTIAL_ONLY_FOLD` (R8). -/
inductive FoldForm
  | poly
  | add
  deriving DecidableEq, Repr

/-- Which bit length the finalizer gets: the switch `LEN_MODE` (R8). -/
inductive LenMode
  | total
  | remainder
  deriving DecidableEq, Repr

/-- The configuration record `Cfg` of R8: the instance parameters `NHBYTES` and `NH_EXTRA` (decisions D2, D3), the OPEN
parameter `SEEDMIX` (D4) and the three switches (D5 to D7). It is fixed for the life of an instance and is no state
(10_state.md R21). -/
structure Cfg where
  /-- `NHBYTES`, the chunk size in bytes (R8, D2). -/
  nhBytes : Nat
  /-- `NH_EXTRA`, the extra NH lanes (R8, D3). -/
  nhExtra : Nat
  /-- `SEEDMIX`, a total function of the seed alone (R8; 45_hash_pipeline.md R192). -/
  seedMix : Word → DWord
  /-- `SHORT_SKIP` (R8; 45_hash_pipeline.md R199). -/
  shortSkip : Bool
  /-- `PARTIAL_ONLY_FOLD` (R8; 45_hash_pipeline.md R200). -/
  partialOnlyFold : FoldForm
  /-- `LEN_MODE` (R8; 45_hash_pipeline.md R201). -/
  lenMode : LenMode

/-- `NHWORDS` = `NHBYTES / 8` (R8). -/
abbrev Cfg.nhWords (cfg : Cfg) : Nat := cfg.nhBytes / 8

/-- `NK` = `NHWORDS + 2·NH_EXTRA` (R8). -/
abbrev Cfg.nk (cfg : Cfg) : Nat := cfg.nhWords + 2 * cfg.nhExtra

/-- The condition R8 puts on `NHBYTES`: a positive multiple of 16, at most 2040. -/
abbrev Cfg.ok (cfg : Cfg) : Prop := 0 < cfg.nhBytes ∧ cfg.nhBytes % 16 = 0 ∧ cfg.nhBytes ≤ 2040

end Sys2Proof.Config
end

