-- ==== Sys2Proof/Machine/Params.lean ====
section
/-! DEFINITION. The configurations: the decided default of `SEEDMIX` and the presets DOC and REF (00_scope.md R8, R9).
This hardware takes DOC. -/

namespace Sys2Proof.Machine

/-- `rotr64(x, n)` for `0 ≤ n ≤ 63` (00_scope.md R11). -/
def rotr64 (x : Word) (n : Nat) : Word := if n = 0 then x else (x >>> n) ||| (x <<< (64 - n))

/-- `ROT_H` (00_scope.md R8, decision D4; PRESUMED by the spec, log 7). -/
def rotH : Nat := 24

/-- `ROT_L` (00_scope.md R8, decision D4; PRESUMED by the spec, log 7). -/
def rotL : Nat := 0

/-- `SEEDMIX(seed)`, the default of the OPEN parameter (45_hash_pipeline.md R192; log 7). -/
def seedMix (seed : Word) : DWord := (rotr64 seed rotH, rotr64 seed rotL)

/-- Preset DOC, the normative configuration (00_scope.md R9; log 9). -/
abbrev presetDoc : Config.Cfg :=
  { nhBytes := Config.nhBytes, nhExtra := Config.nhExtra, seedMix := seedMix, shortSkip := true,
    partialOnlyFold := .poly, lenMode := .total }

/-- Preset REF, the published construction; informative (00_scope.md R9). -/
abbrev presetRef : Config.Cfg :=
  { nhBytes := Config.nhBytes, nhExtra := Config.nhExtra, seedMix := seedMix, shortSkip := false,
    partialOnlyFold := .add, lenMode := .remainder }

/-- The configuration of this hardware: preset DOC (00_scope.md R9). Every operation that reads the configuration
takes it as an argument, and this one is the default. -/
abbrev vhc64 : Config.Cfg := presetDoc

end Sys2Proof.Machine
end

