-- ==== Sys2Proof/Syntax.lean ====
section
/-! DEFINITION. The commands of VHC64 as data: one constructor of `Instr` for each row of
spec/opcode_table.json (30_encoding.md R93), and what travels on the command port (20_memory.md R61 to R63). -/

namespace Sys2Proof

/-- The half a key load writes: `ARG` = 0 is the high word, `ARG` = 1 the low word (30_encoding.md R91). -/
inductive Half
  | high
  | low
  deriving DecidableEq, Repr

/-- The register an `RD` selects, `ARG` = 0 to 5 in this order (10_state.md R26 to R30; 46_system.md R231). -/
inductive RdSel
  | status
  | rl
  | rh
  | len
  | id
  | ecmd
  deriving DecidableEq, Repr

/-- The 19 commands (30_encoding.md R93), with their operands: what `ARG` and the payload carry. -/
inductive Instr
  /-- NOP, 46_system.md R230. -/
  | nop
  /-- RD `sel`, 46_system.md R231. -/
  | rd (sel : RdSel)
  /-- CLRERR, 46_system.md R232. -/
  | clrerr
  /-- LDNHK `i ; w`, 41_key_store.md R141. -/
  | ldnhk (i : Nat) (w : Word)
  /-- LDPK `s ; w`, 41_key_store.md R142. -/
  | ldpk (s : Half) (w : Word)
  /-- LDL3K `s ; w`, 41_key_store.md R143. -/
  | ldl3k (s : Half) (w : Word)
  /-- KEYDONE, 41_key_store.md R144. -/
  | keydone
  /-- KEYCLR, 41_key_store.md R145. -/
  | keyclr
  /-- MUL `; a, b`, 40_arith_kernel.md R127. -/
  | mul (a b : Word)
  /-- ADD128 `; a_hi, a_lo, b_hi, b_lo`, 40_arith_kernel.md R128. -/
  | add128 (aHi aLo bHi bLo : Word)
  /-- FMA `; a, b`, 40_arith_kernel.md R129. -/
  | fma (a b : Word)
  /-- NH `nw ; m[0] .. m[nw−1]`, `nw` the length of the list, 42_nh.md R167. -/
  | nh (m : List Word)
  /-- POLY `; acc_hi, acc_lo, key_hi, key_lo, msg_hi, msg_lo`, 43_poly.md R175. -/
  | poly (accHi accLo keyHi keyLo msgHi msgLo : Word)
  /-- L3 `; acc_hi, acc_lo, l3key_hi, l3key_lo, bitlength`, 44_l3.md R185. -/
  | l3 (accHi accLo keyHi keyLo bitLength : Word)
  /-- START flags `; seed`: `ARG` bit 0 is `BE`, bit 1 `TAGW`, 45_hash_pipeline.md R191. -/
  | start (be tagw : Bool) (seed : Word)
  /-- PUSH `nb ; beat`, 45_hash_pipeline.md R193. -/
  | push (nb : Nat) (beat : Word)
  /-- FINAL, 45_hash_pipeline.md R198. -/
  | final
  /-- ABORT, 45_hash_pipeline.md R202. -/
  | abort
  /-- RDTAG, 45_hash_pipeline.md R204. -/
  | rdtag
  deriving DecidableEq, Repr

/-- The opcodes of 30_encoding.md R93 by mnemonic. -/
inductive Opcode
  | nop | rd | clrerr
  | ldnhk | ldpk | ldl3k | keydone | keyclr
  | mul | add128 | fma | nh | poly | l3
  | start | push | final | abort | rdtag
  deriving DecidableEq, Repr

/-- The error codes 1 to 7 of 60_exceptions.md R240, by name. -/
inductive ErrCode
  /-- E_OPC, code 1: the opcode is not one of the 19. -/
  | opc
  /-- E_FIELD, code 2: a reserved field is nonzero or `ARG` is out of range. -/
  | field
  /-- E_LEN, code 3: the payload length is not the `PLEN` the command requires. -/
  | len
  /-- E_KEYLOCK, code 4: a key-store write or KEYDONE while `KV` = 1. -/
  | keyLock
  /-- E_NOKEY, code 5: a command that reads the key store while `KV` = 0. -/
  | noKey
  /-- E_PHASE, code 6: a pipeline command in a phase that does not allow it. -/
  | phase
  /-- E_KEYRANGE, code 7: an L3 key word not below `p64`. -/
  | keyRange
  deriving DecidableEq, Repr

/-- A command packet: the header beat and the payload words (20_memory.md R62, R63). -/
structure Packet where
  /-- Beat 0, `hdr64`. -/
  hdr : Word
  /-- Beats 1, 2, ...: `Pay[0]`, `Pay[1]`, ... -/
  pay : List Word
  deriving DecidableEq, Repr

/-- One thing the host does at the block's inputs: a beat on the command port with its `cmd_last` bit
(20_memory.md R61), or an assertion of `rst` (70_reset_and_hazards.md R270). -/
inductive PortInput
  | beat (data : Word) (last : Bool)
  | rst
  deriving DecidableEq, Repr

end Sys2Proof
end

