-- ==== Sys2Proof/WellFormed.lean ====
section
/-! DEFINITION. Which terms of `Instr` are commands of the hardware: the ranges 30_encoding.md R93 and R96 give
to LDNHK's index, NH's word count and PUSH's byte count. Every other operand fills its type. The decoder gives
well-formed terms only; a term that is not well formed is no packet's meaning (log 12). -/

namespace Sys2Proof

/-- The ranges of 30_encoding.md R93: LDNHK index 0 to `NK−1`; NH count even, 2 to `NHWORDS`; PUSH count 1 to 8. -/
def Instr.wf (i : Instr) (cfg : Config.Cfg := Machine.vhc64) : Bool :=
  match i with
  | .ldnhk i _ => decide (i < cfg.nk)
  | .nh m => decide (2 ≤ m.length ∧ m.length ≤ cfg.nhWords ∧ m.length % 2 = 0)
  | .push nb _ => decide (1 ≤ nb ∧ nb ≤ 8)
  | .nop | .rd _ | .clrerr | .ldpk _ _ | .ldl3k _ _ | .keydone | .keyclr
  | .mul _ _ | .add128 _ _ _ _ | .fma _ _ | .poly _ _ _ _ _ _ | .l3 _ _ _ _ _
  | .start _ _ _ | .final | .abort | .rdtag => true

end Sys2Proof
end

