-- ==== Sys2Proof/Decode.lean ====
section
/-! DEFINITION. The command encoding (30_encoding.md): the header's fields, the opcode map, the decoder in the
order of R94, the encoder, the framing of packets on the command port (20_memory.md R62, R63), and the table's
match and mask (R99). -/

namespace Sys2Proof

/-! ## The header word (30_encoding.md R90) -/

/-- The header word `HDR`: bits 31:0 of beat 0. -/
def Packet.header (p : Packet) : BitVec 32 := p.hdr.extractLsb' 0 32

/-- `OPC`: bits 31:24 of the header beat. -/
def Packet.opc (p : Packet) : BitVec 8 := p.hdr.extractLsb' 24 8

/-- `RSV`: bits 23:8 of the header beat. -/
def Packet.rsv (p : Packet) : BitVec 16 := p.hdr.extractLsb' 8 16

/-- `ARG`: bits 7:0 of the header beat, an unsigned number (R91). -/
def Packet.arg (p : Packet) : BitVec 8 := p.hdr.extractLsb' 0 8

/-- `RSVH`: bits 63:32 of the header beat. -/
def Packet.rsvh (p : Packet) : BitVec 32 := p.hdr.extractLsb' 32 32

/-! ## The opcode map (30_encoding.md R93) -/

/-- The `OPC` value of each command (R93). -/
def Opcode.code : Opcode → BitVec 8
  | .nop => 0x00#8
  | .rd => 0x01#8
  | .clrerr => 0x02#8
  | .ldnhk => 0x10#8
  | .ldpk => 0x11#8
  | .ldl3k => 0x12#8
  | .keydone => 0x13#8
  | .keyclr => 0x14#8
  | .mul => 0x20#8
  | .add128 => 0x21#8
  | .fma => 0x22#8
  | .nh => 0x23#8
  | .poly => 0x24#8
  | .l3 => 0x25#8
  | .start => 0x30#8
  | .push => 0x31#8
  | .final => 0x32#8
  | .abort => 0x33#8
  | .rdtag => 0x34#8

/-- The 19 commands, in the order of the opcode map (R93). -/
def Opcode.all : List Opcode :=
  [.nop, .rd, .clrerr, .ldnhk, .ldpk, .ldl3k, .keydone, .keyclr, .mul, .add128, .fma, .nh, .poly, .l3,
   .start, .push, .final, .abort, .rdtag]

/-- The command an `OPC` value selects; every value not in the table is reserved (R93, R95). -/
def opcodeOf (opc : BitVec 8) : Option Opcode :=
  Opcode.all.find? fun o => o.code == opc

/-- The range the table gives `ARG` (R93, R96). -/
def argOk (o : Opcode) (arg : Nat) (cfg : Config.Cfg := Machine.vhc64) : Bool :=
  match o with
  | .rd => decide (arg < 6)
  | .ldnhk => decide (arg < cfg.nk)
  | .ldpk | .ldl3k => decide (arg < 2)
  | .nh => decide (2 ≤ arg ∧ arg ≤ cfg.nhWords ∧ arg % 2 = 0)
  | .start => decide (arg < 4)
  | .push => decide (1 ≤ arg ∧ arg ≤ 8)
  | .nop | .clrerr | .keydone | .keyclr | .mul | .add128 | .fma | .poly | .l3 | .final | .abort | .rdtag =>
    decide (arg = 0)

/-- `PLEN(OPC, ARG)`: the number of payload words a command requires (R93). -/
def plen (o : Opcode) (arg : Nat) : Nat :=
  match o with
  | .nop | .rd | .clrerr | .keydone | .keyclr | .final | .abort | .rdtag => 0
  | .ldnhk | .ldpk | .ldl3k | .start | .push => 1
  | .mul | .fma => 2
  | .add128 => 4
  | .l3 => 5
  | .poly => 6
  | .nh => arg

/-- The `ARG` of a half selector (R91). -/
def Half.code : Half → BitVec 8
  | .high => 0#8
  | .low => 1#8

/-- The half an `ARG` selects (R91, R93). -/
def halfOf (arg : Nat) : Half := if arg = 0 then .high else .low

/-- The `ARG` of a register selector (46_system.md R231). -/
def RdSel.code : RdSel → BitVec 8
  | .status => 0#8
  | .rl => 1#8
  | .rh => 2#8
  | .len => 3#8
  | .id => 4#8
  | .ecmd => 5#8

/-- The register an `ARG` selects (46_system.md R231). -/
def rdSelOf (arg : Nat) : RdSel :=
  match arg with
  | 0 => .status
  | 1 => .rl
  | 2 => .rh
  | 3 => .len
  | 4 => .id
  | _ => .ecmd

/-- `Pay[i]`, the i-th payload word of a packet (00_scope.md R12). -/
def payWord (pay : List Word) (i : Nat) : Word := pay.getD i 0#64

/-- The command that a header and a payload of the right length stand for: `ARG` and the payload words in the
order of R93. -/
def build (o : Opcode) (arg : BitVec 8) (pay : List Word) : Instr :=
  match o with
  | .nop => .nop
  | .rd => .rd (rdSelOf arg.toNat)
  | .clrerr => .clrerr
  | .ldnhk => .ldnhk arg.toNat (payWord pay 0)
  | .ldpk => .ldpk (halfOf arg.toNat) (payWord pay 0)
  | .ldl3k => .ldl3k (halfOf arg.toNat) (payWord pay 0)
  | .keydone => .keydone
  | .keyclr => .keyclr
  | .mul => .mul (payWord pay 0) (payWord pay 1)
  | .add128 => .add128 (payWord pay 0) (payWord pay 1) (payWord pay 2) (payWord pay 3)
  | .fma => .fma (payWord pay 0) (payWord pay 1)
  | .nh => .nh pay
  | .poly =>
    .poly (payWord pay 0) (payWord pay 1) (payWord pay 2) (payWord pay 3) (payWord pay 4) (payWord pay 5)
  | .l3 => .l3 (payWord pay 0) (payWord pay 1) (payWord pay 2) (payWord pay 3) (payWord pay 4)
  | .start => .start (arg.getLsbD 0) (arg.getLsbD 1) (payWord pay 0)
  | .push => .push arg.toNat (payWord pay 0)
  | .final => .final
  | .abort => .abort
  | .rdtag => .rdtag

/-- `Decode(hdr64, pay)`, steps 1 to 4 in the order of 30_encoding.md R94: total on any packet. -/
def decode (p : Packet) (cfg : Config.Cfg := Machine.vhc64) : Except ErrCode Instr :=
  match opcodeOf p.opc with
  | none => .error .opc
  | some o =>
    if p.rsvh ≠ 0#32 ∨ p.rsv ≠ 0#16 then .error .field
    else if argOk o p.arg.toNat cfg = false then .error .field
    else if p.pay.length ≠ plen o p.arg.toNat then .error .len
    else .ok (build o p.arg p.pay)

/-! ## The encoder -/

/-- The opcode a command is written with (R93). -/
def Instr.opcode : Instr → Opcode
  | .nop => .nop
  | .rd _ => .rd
  | .clrerr => .clrerr
  | .ldnhk _ _ => .ldnhk
  | .ldpk _ _ => .ldpk
  | .ldl3k _ _ => .ldl3k
  | .keydone => .keydone
  | .keyclr => .keyclr
  | .mul _ _ => .mul
  | .add128 _ _ _ _ => .add128
  | .fma _ _ => .fma
  | .nh _ => .nh
  | .poly _ _ _ _ _ _ => .poly
  | .l3 _ _ _ _ _ => .l3
  | .start _ _ _ => .start
  | .push _ _ => .push
  | .final => .final
  | .abort => .abort
  | .rdtag => .rdtag

/-- The flag pair of START: `ARG` bit 0 is `BE`, bit 1 is `TAGW`, bits 7:2 are 0 (R91). -/
def startFlags (be tagw : Bool) : BitVec 8 := 0#6 ++ BitVec.ofBool tagw ++ BitVec.ofBool be

/-- The `ARG` a command is written with (R91, R93). -/
def Instr.arg : Instr → BitVec 8
  | .rd sel => sel.code
  | .ldnhk i _ => BitVec.ofNat 8 i
  | .ldpk s _ => s.code
  | .ldl3k s _ => s.code
  | .nh m => BitVec.ofNat 8 m.length
  | .start be tagw _ => startFlags be tagw
  | .push nb _ => BitVec.ofNat 8 nb
  | .nop | .clrerr | .keydone | .keyclr | .mul _ _ | .add128 _ _ _ _ | .fma _ _ | .poly _ _ _ _ _ _
  | .l3 _ _ _ _ _ | .final | .abort | .rdtag => 0#8

/-- The payload words a command is written with, in the order of R93. -/
def Instr.payload : Instr → List Word
  | .ldnhk _ w => [w]
  | .ldpk _ w => [w]
  | .ldl3k _ w => [w]
  | .mul a b => [a, b]
  | .add128 aHi aLo bHi bLo => [aHi, aLo, bHi, bLo]
  | .fma a b => [a, b]
  | .nh m => m
  | .poly accHi accLo keyHi keyLo msgHi msgLo => [accHi, accLo, keyHi, keyLo, msgHi, msgLo]
  | .l3 accHi accLo keyHi keyLo bitLength => [accHi, accLo, keyHi, keyLo, bitLength]
  | .start _ _ seed => [seed]
  | .push _ beat => [beat]
  | .nop | .rd _ | .clrerr | .keydone | .keyclr | .final | .abort | .rdtag => []

/-- A header word with `RSV` = 0: `OPC` in bits 31:24, `ARG` in bits 7:0 (R90). -/
def headerOf (o : Opcode) (arg : BitVec 8) : BitVec 32 := o.code ++ 0#16 ++ arg

/-- The header word of a command (R90, R97). -/
def headerWord (i : Instr) : BitVec 32 := headerOf i.opcode i.arg

/-- The packet of a command: the header word zero-extended to a beat, then the payload (R90). -/
def encode (i : Instr) : Packet := ⟨(headerWord i).setWidth 64, i.payload⟩

/-! ## The command stream (20_memory.md R61 to R63) -/

/-- The beats that carry a word and the words after it; `cmd_last` is on the last one (R62). -/
def beatsFrom (d : Word) : List Word → List PortInput
  | [] => [.beat d true]
  | e :: rest => .beat d false :: beatsFrom e rest

/-- A packet on the command port: the header beat, then the payload beats (R62, R63). -/
def packetBeats (p : Packet) : List PortInput := beatsFrom p.hdr p.pay

/-- What the block finds at its inputs at a command boundary. -/
inductive Arrival
  /-- a whole packet, and what follows it -/
  | packet (p : Packet) (rest : List PortInput)
  /-- an assertion of `rst`, before the packet in front of it was complete, and what follows it -/
  | reset (rest : List PortInput)
  /-- no complete packet yet -/
  | waiting
  deriving DecidableEq, Repr

/-- Takes payload beats up to the one with `cmd_last`; `rst` drops the packet partly received
(20_memory.md R63; 70_reset_and_hazards.md R270). -/
def takePayload (hdr : Word) (taken : List Word) : List PortInput → Arrival
  | [] => .waiting
  | .rst :: rest => .reset rest
  | .beat d last :: rest =>
    if last then .packet ⟨hdr, taken ++ [d]⟩ rest else takePayload hdr (taken ++ [d]) rest

/-- The next thing the block takes: a packet framed by `cmd_last` and by nothing else (R63), or a reset. -/
def arrival : List PortInput → Arrival
  | [] => .waiting
  | .rst :: rest => .reset rest
  | .beat hdr last :: rest => if last then .packet ⟨hdr, []⟩ rest else takePayload hdr [] rest

/-! ## The machine-readable table (30_encoding.md R99) -/

/-- The row's `match`: the header word with `ARG` = 0. -/
def Opcode.matchWord (o : Opcode) : BitVec 32 := headerOf o 0#8

/-- The row's `mask`: all ones where `ARG` must be 0, else all but the `ARG` bits. -/
def Opcode.maskWord : Opcode → BitVec 32
  | .rd | .ldnhk | .ldpk | .ldl3k | .nh | .start | .push => 0xFFFFFF00#32
  | .nop | .clrerr | .keydone | .keyclr | .mul | .add128 | .fma | .poly | .l3 | .final | .abort | .rdtag =>
    0xFFFFFFFF#32

/-- A header selects the row when `HDR & mask == match` (R99). -/
def Opcode.selects (o : Opcode) (h : BitVec 32) : Bool := h &&& o.maskWord == o.matchWord

/-! ## Words numbered as the table numbers them -/

/-- The packet whose bits are `w`, bit 0 the least significant bit of the header beat and each payload beat 64 bits
further on, every bit at or above `nbits` 0. It carries as many payload words as its header requires, none where
the header requires no number (log 13). -/
def tablePacket (nbits w : Nat) : Packet :=
  let v := w % 2 ^ nbits
  let hdr := BitVec.ofNat 64 v
  let n := match opcodeOf (Packet.opc ⟨hdr, []⟩) with
    | some o => plen o (Packet.arg ⟨hdr, []⟩).toNat
    | none => 0
  ⟨hdr, (List.range n).map fun i => BitVec.ofNat 64 (v >>> (64 * (i + 1)))⟩

/-- The instruction the decoder reads from the packet whose bits are `w` (`none` where it raises an error). -/
def decodeTableWord (nbits w : Nat) : Option Instr :=
  match decode (tablePacket nbits w) with
  | .ok i => some i
  | .error _ => none

end Sys2Proof
end

