-- ==== Sys2Proof/Machine/State.lean ====
section
/-! DEFINITION. The complete state of an instance (10_state.md R20, R41), the command port's input (log 1), the reasons a
step could stop, and the state after reset (10_state.md R42). The types and operations of namespace Sized hold for any
number `nk` of NH key words; `State`, `KeyStore` and `Result` are those of this hardware. -/

namespace Sys2Proof.Machine

/-- `PHASE`, the controller phase (10_state.md R23). -/
inductive Phase
  /-- no call in progress, `TAG` not valid -/
  | idle
  /-- a call is in progress and takes message beats -/
  | msg
  /-- a call is in progress and its last, short beat has been taken -/
  | tail
  /-- the call has finished and `TAG` is valid -/
  | done
  deriving DecidableEq, Repr

namespace Sized

/-- The key store of an instance with `nk` NH key words (10_state.md R31 to R34). -/
structure KeyStore (nk : Nat) where
  /-- `NHK[0 .. NK−1]` (R31) -/
  nhk : Vector Word nk
  /-- `PKH`, unmasked (R32) -/
  pkh : Word
  /-- `PKL`, unmasked (R32) -/
  pkl : Word
  /-- `L3KH` (R33) -/
  l3kh : Word
  /-- `L3KL` (R33) -/
  l3kl : Word
  /-- `KV`: the key store is complete and locked (R34) -/
  kv : Bool
  deriving DecidableEq, Repr

end Sized

/-- The per-call registers and `PHASE`: what `ClearCall()` clears (10_state.md R35 to R39, R43). -/
structure Call where
  /-- `SPKH`, high word of the seeded, masked polynomial key (R35) -/
  spkh : Word
  /-- `SPKL` (R35) -/
  spkl : Word
  /-- `AH`, high word of the accumulator (R36) -/
  ah : Word
  /-- `AL` (R36) -/
  al : Word
  /-- `NHH`, high word of the running NH total (R37) -/
  nhh : Word
  /-- `NHL` (R37) -/
  nhl : Word
  /-- `W0`, the first word of the current pair (R37) -/
  w0 : Word
  /-- `WHELD`: `W0` holds a word (R37) -/
  wheld : Bool
  /-- `WCNT`, words of the current chunk taken so far (R37) -/
  wcnt : BitVec 8
  /-- `FB`: a chunk has been folded in this call (R38) -/
  fb : Bool
  /-- `LEN`, message bytes taken since START, modulo 2^64 (R27) -/
  len : Word
  /-- `BE`, the byte order of the call: `false` little-endian, `true` big-endian (R20; 20_memory.md R68) -/
  be : Bool
  /-- `TAGW`, the tag width of the call: `false` 64 bits, `true` 32 bits (R20) -/
  tagw : Bool
  /-- `TAG` (R39) -/
  tag : Word
  /-- `PHASE` (R23) -/
  phase : Phase
  deriving DecidableEq, Repr

namespace Sized

/-- The state of an instance with `nk` NH key words: the registers of 10_state.md R20, the response sequence of R41, and
what the host presents at the inputs (log 1). There is no memory and no program counter (20_memory.md R60; 10_state.md R23). -/
structure State (nk : Nat) where
  /-- the key store -/
  keys : KeyStore nk
  /-- the per-call registers and `PHASE` -/
  call : Call
  /-- `RH`, high word of the unit-command result (R22) -/
  rh : Word
  /-- `RL` (R22) -/
  rl : Word
  /-- `ERR`: an error is recorded and not yet cleared (R25) -/
  err : Bool
  /-- `ECODE`, the code of the recorded error (R25; 60_exceptions.md R240) -/
  ecode : BitVec 4
  /-- `ECMD`, the header word of the command that raised it (R29) -/
  ecmd : BitVec 32
  /-- `RSP`, the responses since reset, oldest first (R41; log 4) -/
  rsp : List Word
  /-- what the host presents at the inputs and the block has not yet taken, in order (log 1) -/
  cmdIn : List PortInput
  deriving DecidableEq, Repr

end Sized

/-- The key store of this hardware: `NK` = 16 (00_scope.md R8). -/
abbrev KeyStore := Sized.KeyStore Config.nk

/-- The state of this hardware. -/
abbrev State := Sized.State Config.nk

/-- The reasons a step could stop with a fault: none. Every packet in every state has a defined next state
(70_reset_and_hazards.md R282; 30_encoding.md R95), so no definition raises one; that is safe, because a fault
would only hide a next state the spec gives. -/
inductive Fault
  deriving DecidableEq, Repr

/-- The reasons a step could be refused. -/
inductive Refusal
  /-- An instruction with no meaning yet, raised by an arm of `exec` only; no arm raises it now. Safe: the model
  stops where the hardware goes on. -/
  | notModelled (mnemonic : String)
  deriving DecidableEq, Repr

/-- What one step of an instance with `nk` NH key words answers. -/
abbrev Sized.Result (nk : Nat) := Host.Outcome (Sized.State nk) Fault Refusal

/-- What one step of VHC64 answers. -/
abbrev Result := Sized.Result Config.nk

/-- The key store after reset and after KEYCLR: all zero and unlocked (10_state.md R42). -/
def KeyStore.zero {nk : Nat} : Sized.KeyStore nk :=
  { nhk := Vector.replicate nk 0#64, pkh := 0#64, pkl := 0#64, l3kh := 0#64, l3kl := 0#64, kv := false }

/-- The per-call registers after reset and after `ClearCall()` (10_state.md R42, R43). -/
def Call.zero : Call :=
  { spkh := 0#64, spkl := 0#64, ah := 0#64, al := 0#64, nhh := 0#64, nhl := 0#64, w0 := 0#64, wheld := false,
    wcnt := 0#8, fb := false, len := 0#64, be := false, tagw := false, tag := 0#64, phase := .idle }

/-- The state of every instance after reset: every register 0 and `RSP` empty (10_state.md R42;
70_reset_and_hazards.md R270); the host presents nothing (log 1). -/
def State.zero {nk : Nat} : Sized.State nk :=
  { keys := KeyStore.zero, call := Call.zero, rh := 0#64, rl := 0#64, err := false, ecode := 0#4, ecmd := 0#32,
    rsp := [], cmdIn := [] }

/-- The state of this hardware after reset. -/
def State.reset : State := State.zero

end Sys2Proof.Machine
end

