-- ==== Sys2Proof/Machine/Operands.lean ====
section
/-! DEFINITION. Operand forms: byte reversal (00_scope.md R11), the message word of a beat
(20_memory.md R68), the tag beat (45_hash_pipeline.md R204), and the one read and one write of the NH key store
(00_scope.md R12). -/

namespace Sys2Proof.Machine

variable {nk : Nat}

/-- Lane `i` of a beat: bits `8i+7 : 8i` (20_memory.md R67). -/
def laneOf (x : Word) (i : Nat) : Byte := x.extractLsb' (8 * i) 8

/-- The word whose lane `i` is `f i` (20_memory.md R67). -/
def ofLanes (f : Nat → Byte) : Word := f 7 ++ f 6 ++ f 5 ++ f 4 ++ f 3 ++ f 2 ++ f 1 ++ f 0

/-- `bswap64(x)` reverses the eight bytes of `x` (00_scope.md R11). -/
def bswap64 (x : Word) : Word := ofLanes fun i => laneOf x (7 - i)

/-- `bswap32(x)` reverses the four bytes of a 32-bit `x` (00_scope.md R11). -/
def bswap32 (x : BitVec 32) : BitVec 32 :=
  x.extractLsb' 0 8 ++ x.extractLsb' 8 8 ++ x.extractLsb' 16 8 ++ x.extractLsb' 24 8

/-- The beat with lanes `nb` to 7 forced to zero (20_memory.md R68, R71). -/
def validLanes (beat : Word) (nb : Nat) : Word := beat &&& BitVec.ofNat 64 (2 ^ (8 * nb) - 1)

/-- `WordOf(beat, nb, BE)`: the message word of a beat (20_memory.md R68). -/
def wordOf (beat : Word) (nb : Nat) (be : Bool) : Word :=
  if be then bswap64 (validLanes beat nb) else validLanes beat nb

/-- The beat RDTAG returns: the tag, or its low 32 bits zero-extended, in the byte order of the call
(45_hash_pipeline.md R204; 20_memory.md R69). -/
def tagBeat (be tagw : Bool) (tag : Word) : Word :=
  if tagw then
    let t32 := tag.extractLsb' 0 32
    (if be then bswap32 t32 else t32).setWidth 64
  else if be then bswap64 tag
  else tag

/-- `NHK[i]` (10_state.md R31). An index of `NK` or more reads 0: no command reads one from a state that a run
reaches (45_hash_pipeline.md R194; log 11). -/
def Sized.KeyStore.nhkAt (k : Sized.KeyStore nk) (i : Nat) : Word := k.nhk[i]?.getD 0#64

/-- `NHK[i] <- w` (10_state.md R31). An index of `NK` or more writes nothing: no well-formed command has one
(30_encoding.md R96; log 11). -/
def Sized.KeyStore.setNhk (k : Sized.KeyStore nk) (i : Nat) (w : Word) : Sized.KeyStore nk :=
  { k with nhk := k.nhk.setIfInBounds i w }

end Sys2Proof.Machine
end

