-- ==== Sys2Proof/Machine/Units.lean ====
section
/-! DEFINITION. The functions of the five arithmetic units: the kernel (40_arith_kernel.md R120 to R122), the NH block
hasher (42_nh.md R160), the polynomial accumulator (43_poly.md R170) and the L3 finalizer (44_l3.md R180). A pair is
`(hi, lo)`. -/

namespace Sys2Proof.Machine

/-- `mul64(a, b)`: the exact 128-bit product (40_arith_kernel.md R120). -/
def mul64 (a b : Word) : DWord :=
  (BitVec.ofNat 64 (a.toNat * b.toNat / 2 ^ 64), BitVec.ofNat 64 (a.toNat * b.toNat))

/-- `add128(a_hi, a_lo, b_hi, b_lo)`: the carry of the low words goes into the high word, the carry out of bit 127
is dropped (40_arith_kernel.md R121). -/
def add128 (aHi aLo bHi bLo : Word) : DWord :=
  let lo := aLo + bLo
  let c : Word := if lo < aLo then 1#64 else 0#64
  (aHi + bHi + c, lo)

/-- `mulc(c_hi, c_lo, a, b)`: the multiplier with its accumulate input (40_arith_kernel.md R122). -/
def mulc (cHi cLo a b : Word) : DWord :=
  let p := mul64 a b
  add128 cHi cLo p.1 p.2

/-- The first `n` iterations of the loop of 42_nh.md R160: the running total over pairs 0 to `n−1`. -/
def nhPairs (m k : Nat → Word) : Nat → DWord
  | 0 => (0#64, 0#64)
  | i + 1 =>
    let t := nhPairs m k i
    mulc t.1 t.2 (m (2 * i) + k (2 * i)) (m (2 * i + 1) + k (2 * i + 1))

/-- `nh(m, k, n)` for an even word count `n` (42_nh.md R160): all 128 bits, unmasked (R161), modulo 2^128 (R162). -/
def nh (m k : Nat → Word) (n : Nat) : DWord := nhPairs m k (n / 2)

/-- `poly_step(ah, al, kh, kl, mh, ml)`: the sequence of 43_poly.md R170, line by line.
DEDUCED (log 18): the pair that R173 calls the largest value under the contract is not; the inputs of R176 give a larger
one. -/
def polyStep (ah al kh kl mh ml : Word) : DWord :=
  let t3 := mul64 al kh
  let t2 := mul64 ah kl
  let t1 := mul64 ah (2#64 * kh)
  let a := mul64 al kl
  let a := add128 a.1 a.2 t1.1 t1.2
  let t2 := add128 t2.1 t2.2 t3.1 t3.2
  let u := add128 t2.1 a.1 0#64 t2.2
  let t2h := 2#64 * u.1 + (u.2 >>> 63)
  let ah := u.2 &&& Config.m63
  let a := add128 ah a.2 mh ml
  add128 a.1 a.2 0#64 t2h

/-- Step 1 of 44_l3.md R180: `(p1, p2) + (len, 0)` reduced modulo 2^127 − 1. -/
def l3Reduce127 (p1 p2 len : Word) : DWord :=
  let t := p1 >>> 63
  let p1 := p1 &&& Config.m63
  let p := add128 p1 p2 len t
  let t : Word := (if p.1 > Config.m63 then 1#64 else 0#64) +
    (if p.1 = Config.m63 ∧ p.2 = Config.m64 then 1#64 else 0#64)
  let p := add128 p.1 p.2 0#64 t
  (p.1 &&& Config.m63, p.2)

/-- Step 2 of 44_l3.md R180: the quotient and the remainder by 2^64 − 2^32. -/
def l3DivMod (p1 p2 : Word) : DWord :=
  let t := p1 + (p2 >>> 32)
  let t := t + (t >>> 32)
  let t := t + (if t &&& 0xFFFFFFFF#64 > 0xFFFFFFFE#64 then 1#64 else 0#64)
  let p1 := p1 + (t >>> 32)
  (p1, p2 + (p1 <<< 32))

/-- Step 3 of 44_l3.md R180 for one half: add the key, and 257 when the addition wrapped. -/
def l3AddKey (p k : Word) : Word :=
  let p := p + k
  if p < k then p + 257#64 else p

/-- Step 4 of 44_l3.md R180: the product reduced modulo 2^64 − 257. -/
def l3MulMod (p1 p2 : Word) : Word :=
  let r := mul64 p1 p2
  let t := r.1 >>> 56
  let s := add128 t r.2 0#64 r.1
  let rh := r.1 <<< 8
  let s := add128 s.1 s.2 0#64 rh
  let t := s.1 + (s.1 <<< 8)
  let rl := s.2 + t
  let rl := if rl < t then rl + 257#64 else rl
  if rl > Config.p64 - 1#64 then rl + 257#64 else rl

/-- `l3hash(p1, p2, k1, k2, len)`: the four steps of 44_l3.md R180 in order. -/
def l3hash (p1 p2 k1 k2 len : Word) : Word :=
  let x := l3Reduce127 p1 p2 len
  let q := l3DivMod x.1 x.2
  l3MulMod (l3AddKey q.1 k1) (l3AddKey q.2 k2)

end Sys2Proof.Machine
end

