-- ==== Sys2Proof/Machine/Flags.lean ====
section
/-! DEFINITION. The status bits and the readable registers: codes of phase and error, STATUS and ID
(10_state.md R25 to R29), the level outputs (20_memory.md R61; 60_exceptions.md R250), and what RD reads
(46_system.md R231). The block has no arithmetic flag (10_state.md R24). -/

namespace Sys2Proof.Machine

variable {nk : Nat}

/-- The value of `PHASE` (10_state.md R23). -/
def Phase.code : Phase → BitVec 2
  | .idle => 0#2
  | .msg => 1#2
  | .tail => 2#2
  | .done => 3#2

/-- `PHASE` is MSG or TAIL: a call is in progress (10_state.md R23). -/
def Phase.inCall : Phase → Bool
  | .msg | .tail => true
  | .idle | .done => false

/-- The value of `ECODE` for an error (60_exceptions.md R240). -/
def errCodeValue : ErrCode → BitVec 4
  | .opc => 1#4
  | .field => 2#4
  | .len => 3#4
  | .keyLock => 4#4
  | .noKey => 5#4
  | .phase => 6#4
  | .keyRange => 7#4

/-- `STATUS`, from bit 63 down: reserved, `TAGW`, `BE`, `ECODE`, `ERR`, `PHASE`, `KV` (10_state.md R26). -/
def statusWord (s : Sized.State nk) : Word :=
  0#54 ++ BitVec.ofBool s.call.tagw ++ BitVec.ofBool s.call.be ++ s.ecode ++ BitVec.ofBool s.err ++
    s.call.phase.code ++ BitVec.ofBool s.keys.kv

/-- `ID`, from bit 63 down: reserved, `NK`, `NHWORDS`, minor version 0, major version 1, magic (10_state.md R28). -/
def idWord (cfg : Config.Cfg) : Word :=
  0#16 ++ BitVec.ofNat 8 cfg.nk ++ BitVec.ofNat 8 cfg.nhWords ++ 0#8 ++ 1#8 ++ 0x5648#16

/-- The value RD returns for a selector (46_system.md R231). -/
def readReg (cfg : Config.Cfg) (sel : RdSel) (s : Sized.State nk) : Word :=
  match sel with
  | .status => statusWord s
  | .rl => s.rl
  | .rh => s.rh
  | .len => s.call.len
  | .id => idWord cfg
  | .ecmd => s.ecmd.setWidth 64

/-- The output `err_o`, equal to `ERR` (20_memory.md R61). -/
def errO (s : Sized.State nk) : Bool := s.err

/-- The output `done_o`: 1 exactly when `PHASE` = DONE (20_memory.md R61). -/
def doneO (s : Sized.State nk) : Bool := decide (s.call.phase = .done)

end Sys2Proof.Machine
end

