-- ==== Sys2Proof/Machine/Ops.lean ====
section
/-! DEFINITION. The shared operations over the state: error entry and return (60_exceptions.md R246, R248), responses
(20_memory.md R66), the result pair (10_state.md R22), `ClearCall` (10_state.md R43), and the controller's operations
over the per-call registers (45_hash_pipeline.md R191 to R201). The controller's operations take the configuration,
so that what they do is said for every chunk size, every `SEEDMIX` and
every setting of the switches. -/

namespace Sys2Proof.Machine

variable {nk : Nat}

/-- Error entry, `raise e` for the command whose header word is `hdr`: `ERR`, `ECODE`, `ECMD` and nothing else
(60_exceptions.md R246). -/
def raiseError (e : ErrCode) (hdr : BitVec 32) (s : Sized.State nk) : Sized.State nk :=
  { s with err := true, ecode := errCodeValue e, ecmd := hdr }

/-- Return from the error state (60_exceptions.md R248; 46_system.md R232). -/
def clearError (s : Sized.State nk) : Sized.State nk := { s with err := false, ecode := 0#4, ecmd := 0#32 }

/-- `Rsp(v)`: append one word to the response sequence (20_memory.md R66; 10_state.md R41). -/
def respond (v : Word) (s : Sized.State nk) : Sized.State nk := { s with rsp := s.rsp ++ [v] }

/-- `(RH, RL) <- r` (10_state.md R22). -/
def setResult (r : DWord) (s : Sized.State nk) : Sized.State nk := { s with rh := r.1, rl := r.2 }

/-- `ClearCall()` (10_state.md R43). -/
def clearCall (s : Sized.State nk) : Sized.State nk := { s with call := Call.zero }

/-- One check of a command's rule: when `refuse` holds the command raises `e` and has no other effect, else it goes
on (60_exceptions.md R244, R247). The header recorded is the command's own (R242; log 6). -/
def checkOr (refuse : Bool) (e : ErrCode) (i : Instr) (s : Sized.State nk) (go : Sized.Result nk) : Sized.Result nk :=
  if refuse then .next (raiseError e (headerWord i) s) else go

/-! ## START (45_hash_pipeline.md R191) -/

/-- The seeded, masked polynomial key `(SPKH, SPKL)` of a seed: XOR first, then the mask (R191, R192). -/
def seededKey (cfg : Config.Cfg) (k : Sized.KeyStore nk) (seed : Word) : DWord :=
  let x := cfg.seedMix seed
  ((k.pkh ^^^ x.1) &&& Config.mpoly, (k.pkl ^^^ x.2) &&& Config.mpoly)

/-- The per-call registers after START (R191). -/
def startCall (cfg : Config.Cfg) (k : Sized.KeyStore nk) (be tagw : Bool) (seed : Word) : Call :=
  let spk := seededKey cfg k seed
  { Call.zero with
    be := be, tagw := tagw, spkh := spk.1, spkl := spk.2, ah := spk.1, al := spk.2, phase := .msg }

/-! ## The three switches (45_hash_pipeline.md R199 to R201) -/

/-- Whether a fold is of a full or of a partial chunk (R197). -/
inductive FoldKind
  | full
  | part
  deriving DecidableEq, Repr

/-- `SkipTail(LEN)` (R199). -/
def skipTail (cfg : Config.Cfg) (len : Word) : Bool := cfg.shortSkip && decide (len < 16#64)

/-- `UseAdd(FB, kind)` (R200). -/
def useAdd (cfg : Config.Cfg) (fb : Bool) (kind : FoldKind) : Bool :=
  !fb && (decide (kind = .full) || decide (cfg.partialOnlyFold = .add))

/-- `BitLen(LEN)` (R201). -/
def bitLen (cfg : Config.Cfg) (len : Word) : Word :=
  match cfg.lenMode with
  | .total => len <<< 3
  | .remainder => (len % BitVec.ofNat 64 cfg.nhBytes) <<< 3

/-! ## PUSH and FINAL (45_hash_pipeline.md R193 to R198) -/

/-- One pair enters the NH unit: the held word is word `WCNT − 1` of the chunk, `w` is word `WCNT` (R194). -/
def absorbPair (k : Sized.KeyStore nk) (w : Word) (c : Call) : DWord :=
  mulc c.nhh c.nhl (c.w0 + k.nhkAt (c.wcnt - 1#8).toNat) (w + k.nhkAt c.wcnt.toNat)

/-- `Absorb(w)`: one message word enters the NH unit (R194).
DESIGN CHOICE (log 17): for a message of 9 to 15 bytes the second PUSH evaluates `mulc` here, as R193 and R194 write it,
although R203 says that the skipped path of R199 evaluates none; `NHH`, `NHL` hold that sum until FINAL discards it. -/
def absorb (k : Sized.KeyStore nk) (w : Word) (c : Call) : Call :=
  if c.wheld then
    let nh := absorbPair k w c
    { c with nhh := nh.1, nhl := nh.2, w0 := 0#64, wheld := false, wcnt := c.wcnt + 1#8 }
  else
    { c with w0 := w, wheld := true, wcnt := c.wcnt + 1#8 }

/-- `NHH`, `NHL`, `W0`, `WHELD`, `WCNT` to 0: ready for the next chunk (R197, R198). -/
def clearChunk (c : Call) : Call :=
  { c with nhh := 0#64, nhl := 0#64, w0 := 0#64, wheld := false, wcnt := 0#8 }

/-- The accumulator after a fold: the NH total masked to 126 bits (R196), then the add form or `poly_step` (R197). -/
def foldedAcc (cfg : Config.Cfg) (kind : FoldKind) (c : Call) : DWord :=
  let mh := c.nhh &&& Config.m62
  if useAdd cfg c.fb kind then add128 mh c.nhl c.spkh c.spkl
  else polyStep c.ah c.al c.spkh c.spkl mh c.nhl

/-- `Fold(kind)` (R197). -/
def foldChunk (cfg : Config.Cfg) (kind : FoldKind) (c : Call) : Call :=
  let a := foldedAcc cfg kind c
  clearChunk { c with ah := a.1, al := a.2, fb := true }

/-- `LEN <- LEN +64 nb` (R193). -/
def countBytes (nb : Nat) (c : Call) : Call := { c with len := c.len + BitVec.ofNat 64 nb }

/-- `PHASE <- p` (R193, R198). -/
def setPhase (p : Phase) (c : Call) : Call := { c with phase := p }

/-- The per-call registers after PUSH in MSG (R193). -/
def pushCall (cfg : Config.Cfg) (k : Sized.KeyStore nk) (nb : Nat) (beat : Word) (c : Call) : Call :=
  let c := absorb k (wordOf beat nb c.be) (countBytes nb c)
  if nb < 8 then setPhase .tail c
  else if c.wcnt.toNat = cfg.nhWords then foldChunk cfg .full c
  else c

/-- The partial last chunk at FINAL: pad an odd word count with one zero word, then fold (R198; 20_memory.md R73). -/
def foldTail (cfg : Config.Cfg) (k : Sized.KeyStore nk) (c : Call) : Call :=
  let c := if c.wheld then
      let nh := absorbPair k 0#64 c
      { c with nhh := nh.1, nhl := nh.2 }
    else c
  foldChunk cfg .part c

/-- The per-call registers after FINAL in MSG or TAIL (R198). -/
def finalCall (cfg : Config.Cfg) (k : Sized.KeyStore nk) (c : Call) : Call :=
  let c := if 0 < c.wcnt.toNat ∧ skipTail cfg c.len = false then foldTail cfg k c else c
  let c := { c with tag := l3hash c.ah c.al k.l3kh k.l3kl (bitLen cfg c.len) }
  setPhase .done (clearChunk c)

end Sys2Proof.Machine
end

