-- ==== Sys2Proof/Machine/KeyCommands.lean ====
section
/-! DEFINITION. The key store commands LDNHK, LDPK, LDL3K, KEYDONE, KEYCLR (41_key_store.md). -/

namespace Sys2Proof.Machine

variable {nk : Nat}

/-- LDNHK writes one NH key word while `KV` = 0 (41_key_store.md R141). -/
def execLdnhk (i : Nat) (w : Word) (s : Sized.State nk) : Sized.Result nk :=
  checkOr s.keys.kv .keyLock (.ldnhk i w) s (.next { s with keys := s.keys.setNhk i w })

/-- LDPK writes a polynomial key word, unmasked, while `KV` = 0 (41_key_store.md R142). -/
def execLdpk (h : Half) (w : Word) (s : Sized.State nk) : Sized.Result nk :=
  checkOr s.keys.kv .keyLock (.ldpk h w) s
    (.next (match h with
      | .high => { s with keys := { s.keys with pkh := w } }
      | .low => { s with keys := { s.keys with pkl := w } }))

/-- LDL3K writes an L3 key word below `p64` while `KV` = 0; the lock is checked before the range
(41_key_store.md R143). -/
def execLdl3k (h : Half) (w : Word) (s : Sized.State nk) : Sized.Result nk :=
  checkOr s.keys.kv .keyLock (.ldl3k h w) s
    (checkOr (decide (Config.p64 ≤ w)) .keyRange (.ldl3k h w) s
      (.next (match h with
        | .high => { s with keys := { s.keys with l3kh := w } }
        | .low => { s with keys := { s.keys with l3kl := w } })))

/-- KEYDONE locks the key store (41_key_store.md R144). -/
def execKeydone (s : Sized.State nk) : Sized.Result nk :=
  checkOr s.keys.kv .keyLock .keydone s (.next { s with keys := { s.keys with kv := true } })

/-- KEYCLR zeroes and unlocks the key store and clears the call, outside a call (41_key_store.md R145). -/
def execKeyclr (s : Sized.State nk) : Sized.Result nk :=
  checkOr s.call.phase.inCall .phase .keyclr s (.next (clearCall { s with keys := KeyStore.zero }))

end Sys2Proof.Machine
end

