-- ==== Sys2Proof/Machine/Pipeline.lean ====
section
/-! DEFINITION. The hash pipeline commands START, PUSH, FINAL, ABORT, RDTAG (45_hash_pipeline.md). -/

namespace Sys2Proof.Machine

variable {nk : Nat}

/-- START begins a call: `KV` is checked before the phase (45_hash_pipeline.md R191). -/
def execStart (be tagw : Bool) (seed : Word) (s : Sized.State nk) (cfg : Config.Cfg := vhc64) : Sized.Result nk :=
  checkOr (!s.keys.kv) .noKey (.start be tagw seed) s
    (checkOr s.call.phase.inCall .phase (.start be tagw seed) s
      (.next { s with call := startCall cfg s.keys be tagw seed }))

/-- PUSH takes `nb` message bytes, in MSG only (45_hash_pipeline.md R193). -/
def execPush (nb : Nat) (beat : Word) (s : Sized.State nk) (cfg : Config.Cfg := vhc64) : Sized.Result nk :=
  checkOr (decide (s.call.phase ≠ .msg)) .phase (.push nb beat) s
    (.next { s with call := pushCall cfg s.keys nb beat s.call })

/-- FINAL ends the call and forms the tag (45_hash_pipeline.md R198). -/
def execFinal (s : Sized.State nk) (cfg : Config.Cfg := vhc64) : Sized.Result nk :=
  checkOr (!s.call.phase.inCall) .phase .final s (.next { s with call := finalCall cfg s.keys s.call })

/-- ABORT clears the call in every phase (45_hash_pipeline.md R202). -/
def execAbort (s : Sized.State nk) : Sized.Result nk := .next (clearCall s)

/-- RDTAG responds with the tag bytes, in DONE only, and changes no register (45_hash_pipeline.md R204). -/
def execRdtag (s : Sized.State nk) : Sized.Result nk :=
  checkOr (decide (s.call.phase ≠ .done)) .phase .rdtag s
    (.next (respond (tagBeat s.call.be s.call.tagw s.call.tag) s))

end Sys2Proof.Machine
end

