-- ==== Sys2Proof/Machine/System.lean ====
section
/-! DEFINITION. The system commands NOP, RD, CLRERR (46_system.md). -/

namespace Sys2Proof.Machine

variable {nk : Nat}

/-- NOP changes no register and produces no response (46_system.md R230). -/
def execNop (s : Sized.State nk) : Sized.Result nk := .next s

/-- RD responds with the selected register and changes no register (46_system.md R231). -/
def execRd (sel : RdSel) (s : Sized.State nk) (cfg : Config.Cfg := vhc64) : Sized.Result nk :=
  .next (respond (readReg cfg sel s) s)

/-- CLRERR leaves the error state (46_system.md R232; 60_exceptions.md R248). -/
def execClrerr (s : Sized.State nk) : Sized.Result nk := .next (clearError s)

end Sys2Proof.Machine
end

