-- ==== Sys2Proof/Machine/UnitCommands.lean ====
section
/-! DEFINITION. The unit commands MUL, ADD128, FMA, NH, POLY, L3: they write `RH` and `RL` and nothing else
(40_arith_kernel.md R126). -/

namespace Sys2Proof.Machine

variable {nk : Nat}

/-- MUL (40_arith_kernel.md R127). -/
def execMul (a b : Word) (s : Sized.State nk) : Sized.Result nk := .next (setResult (mul64 a b) s)

/-- ADD128 (40_arith_kernel.md R128). -/
def execAdd128 (aHi aLo bHi bLo : Word) (s : Sized.State nk) : Sized.Result nk := .next (setResult (add128 aHi aLo bHi bLo) s)

/-- FMA accumulates into `R` (40_arith_kernel.md R129). -/
def execFma (a b : Word) (s : Sized.State nk) : Sized.Result nk := .next (setResult (mulc s.rh s.rl a b) s)

/-- NH of the payload words with `NHK[0 .. nw−1]`, while `KV` = 1 (42_nh.md R167). -/
def execNh (m : List Word) (s : Sized.State nk) : Sized.Result nk :=
  checkOr (!s.keys.kv) .noKey (.nh m) s (.next (setResult (nh (payWord m) s.keys.nhkAt m.length) s))

/-- POLY (43_poly.md R175). -/
def execPoly (accHi accLo keyHi keyLo msgHi msgLo : Word) (s : Sized.State nk) : Sized.Result nk :=
  .next (setResult (polyStep accHi accLo keyHi keyLo msgHi msgLo) s)

/-- L3: `RH` is 0, `RL` the tag (44_l3.md R185). -/
def execL3 (accHi accLo keyHi keyLo bitLength : Word) (s : Sized.State nk) : Sized.Result nk :=
  .next (setResult (0#64, l3hash accHi accLo keyHi keyLo bitLength) s)

end Sys2Proof.Machine
end

