-- ==== Sys2Proof/Machine/Dispatch.lean ====
section
/-! DEFINITION. The meaning of each command, one arm per constructor. Executing a command here is what follows the
gate of 60_exceptions.md R245 (log 5). -/

namespace Sys2Proof.Machine

def exec (i : Instr) (s : State) : Host.Outcome State Fault Refusal :=
  match i with
  | .nop => Sys2Proof.Machine.execNop s
  | .rd sel => Sys2Proof.Machine.execRd sel s
  | .clrerr => Sys2Proof.Machine.execClrerr s
  | .ldnhk idx w => Sys2Proof.Machine.execLdnhk idx w s
  | .ldpk h w => Sys2Proof.Machine.execLdpk h w s
  | .ldl3k h w => Sys2Proof.Machine.execLdl3k h w s
  | .keydone => Sys2Proof.Machine.execKeydone s
  | .keyclr => Sys2Proof.Machine.execKeyclr s
  | .mul a b => Sys2Proof.Machine.execMul a b s
  | .add128 aHi aLo bHi bLo => Sys2Proof.Machine.execAdd128 aHi aLo bHi bLo s
  | .fma a b => Sys2Proof.Machine.execFma a b s
  | .nh m => Sys2Proof.Machine.execNh m s
  | .poly accHi accLo keyHi keyLo msgHi msgLo => Sys2Proof.Machine.execPoly accHi accLo keyHi keyLo msgHi msgLo s
  | .l3 accHi accLo keyHi keyLo bitLength => Sys2Proof.Machine.execL3 accHi accLo keyHi keyLo bitLength s
  | .start be tagw seed => Sys2Proof.Machine.execStart be tagw seed s
  | .push nb beat => Sys2Proof.Machine.execPush nb beat s
  | .final => Sys2Proof.Machine.execFinal s
  | .abort => Sys2Proof.Machine.execAbort s
  | .rdtag => Sys2Proof.Machine.execRdtag s

end Sys2Proof.Machine
end

