-- ==== Sys2Proof/Machine/Execute.lean ====
section
/-! DEFINITION. The top-level step of 60_exceptions.md R245 over one packet, in an instance of any
configuration, and over what the host presents at the inputs (20_memory.md R62, R63; 70_reset_and_hazards.md R270, R282). -/

namespace Sys2Proof.Machine

variable {nk : Nat}

/-- The commands that execute while `ERR` = 1: NOP, RD, CLRERR, ABORT (60_exceptions.md R245). -/
def passesGate : Instr → Bool
  | .nop | .rd _ | .clrerr | .abort => true
  | .ldnhk _ _ | .ldpk _ _ | .ldl3k _ _ | .keydone | .keyclr | .mul _ _ | .add128 _ _ _ _ | .fma _ _ | .nh _
  | .poly _ _ _ _ _ _ | .l3 _ _ _ _ _ | .start _ _ _ | .push _ _ | .final | .rdtag => false

/-- `Execute(cmd, state)` in an instance configured as `cfg` (60_exceptions.md R245): the meanings that `exec` runs at
this hardware's configuration, each at `cfg`. -/
def execIn (cfg : Config.Cfg) (i : Instr) (s : Sized.State nk) : Sized.Result nk :=
  match i with
  | .nop => execNop s
  | .rd sel => execRd sel s cfg
  | .clrerr => execClrerr s
  | .ldnhk idx w => execLdnhk idx w s
  | .ldpk h w => execLdpk h w s
  | .ldl3k h w => execLdl3k h w s
  | .keydone => execKeydone s
  | .keyclr => execKeyclr s
  | .mul a b => execMul a b s
  | .add128 aHi aLo bHi bLo => execAdd128 aHi aLo bHi bLo s
  | .fma a b => execFma a b s
  | .nh m => execNh m s
  | .poly accHi accLo keyHi keyLo msgHi msgLo => execPoly accHi accLo keyHi keyLo msgHi msgLo s
  | .l3 accHi accLo keyHi keyLo bitLength => execL3 accHi accLo keyHi keyLo bitLength s
  | .start be tagw seed => execStart be tagw seed s cfg
  | .push nb beat => execPush nb beat s cfg
  | .final => execFinal s cfg
  | .abort => execAbort s
  | .rdtag => execRdtag s

/-- A well-formed command behind the gate: while `ERR` = 1 every command the gate does not pass is discarded
(60_exceptions.md R245). -/
def execCommand (i : Instr) (s : Sized.State nk) (cfg : Config.Cfg := vhc64) : Sized.Result nk :=
  if s.err && !passesGate i then .next s else execIn cfg i s

/-- `Step(state, (hdr64, pay))` of 60_exceptions.md R245: a malformed packet raises its error, or is discarded while
`ERR` = 1 (R246, R249). -/
def execPacket (p : Packet) (s : Sized.State nk) (cfg : Config.Cfg := vhc64) : Sized.Result nk :=
  match decode p cfg with
  | .error e => if s.err then .next s else .next (raiseError e p.header s)
  | .ok i => execCommand i s cfg

/-- One step of an instance configured as `cfg`, this hardware's where no other is named: it takes the next packet and
executes it, or takes a reset; with no complete packet presented nothing changes
(70_reset_and_hazards.md R270, R282; log 2, log 3). -/
def acceptInput (s : Sized.State nk) (cfg : Config.Cfg := vhc64) : Sized.Result nk :=
  match arrival s.cmdIn with
  | .packet p rest => execPacket p { s with cmdIn := rest } cfg
  | .reset rest => .next { State.zero with cmdIn := rest }
  | .waiting => .next s

/-- The host presents inputs in front of everything it has presented and the block has not taken (log 1). -/
def present (xs : List PortInput) (s : Sized.State nk) : Sized.State nk := { s with cmdIn := xs ++ s.cmdIn }

/-- A run of well-formed commands in order, each behind the gate (70_reset_and_hazards.md R282; 20_memory.md R76). -/
def runCommands (cmds : List Instr) (s : Sized.State nk) (cfg : Config.Cfg := vhc64) : Sized.Result nk :=
  match cmds with
  | [] => .next s
  | i :: rest =>
    match execCommand i s cfg with
    | .next t => runCommands rest t cfg
    | .fault f => .fault f
    | .refused r => .refused r

end Sys2Proof.Machine
end

