-- ==== Sys2Proof/Machine/Step.lean ====
section
/-! DEFINITION. The step of the machine and the placing of an instruction where the step takes its next one. -/

namespace Sys2Proof.Machine

/-- One step of VHC64 (00_scope.md R13; 60_exceptions.md R245). -/
def step (s : State) : Host.Outcome State Fault Refusal := Sys2Proof.Machine.acceptInput s

/-- `s` with the packet whose bits are `w` presented next at the command port, framed by `cmd_last` (log 1, log 13). -/
def State.withFetchWord (s : State) (nbits w : Nat) : State :=
  Sys2Proof.Machine.present (Sys2Proof.packetBeats (Sys2Proof.tablePacket nbits w)) s

end Sys2Proof.Machine
end

