-- ==== Sys2Proof/Machine/Table.lean ====
section
/-! DEFINITION. The command set of 30_encoding.md R93 as a table of numbers, written from the spec's table and not from
the decoder: what the statements about decoding compare the decoder with. -/

namespace Sys2Proof.Machine

/-- A row of the opcode map: `OPC`, which `ARG` values it allows, and `PLEN` as a function of `ARG` (R93). -/
structure CommandRow where
  /-- `OPC` -/
  opc : Nat
  /-- the range of `ARG` -/
  argRange : Nat → Bool
  /-- `PLEN(OPC, ARG)` -/
  words : Nat → Nat

/-- The 19 rows of 30_encoding.md R93. -/
def commandTable : List CommandRow :=
  [⟨0x00, fun a => a == 0, fun _ => 0⟩,
   ⟨0x01, fun a => a ≤ 5, fun _ => 0⟩,
   ⟨0x02, fun a => a == 0, fun _ => 0⟩,
   ⟨0x10, fun a => a ≤ 15, fun _ => 1⟩,
   ⟨0x11, fun a => a ≤ 1, fun _ => 1⟩,
   ⟨0x12, fun a => a ≤ 1, fun _ => 1⟩,
   ⟨0x13, fun a => a == 0, fun _ => 0⟩,
   ⟨0x14, fun a => a == 0, fun _ => 0⟩,
   ⟨0x20, fun a => a == 0, fun _ => 2⟩,
   ⟨0x21, fun a => a == 0, fun _ => 4⟩,
   ⟨0x22, fun a => a == 0, fun _ => 2⟩,
   ⟨0x23, fun a => 2 ≤ a && a ≤ 16 && a % 2 == 0, fun a => a⟩,
   ⟨0x24, fun a => a == 0, fun _ => 6⟩,
   ⟨0x25, fun a => a == 0, fun _ => 5⟩,
   ⟨0x30, fun a => a ≤ 3, fun _ => 1⟩,
   ⟨0x31, fun a => 1 ≤ a && a ≤ 8, fun _ => 1⟩,
   ⟨0x32, fun a => a == 0, fun _ => 0⟩,
   ⟨0x33, fun a => a == 0, fun _ => 0⟩,
   ⟨0x34, fun a => a == 0, fun _ => 0⟩]

/-- The row of an `OPC` value, if it has one. -/
def rowOf (opc : Nat) : Option CommandRow := commandTable.find? fun r => r.opc == opc

end Sys2Proof.Machine
end

