-- ==== Sys2Proof/Machine/Vhash.lean ====
section
/-! DEFINITION. A whole call as a function of the message, the seed, the byte order and the key store
(45_hash_pipeline.md R205), and the pseudo-instructions that drive a call (30_encoding.md R98). -/

namespace Sys2Proof.Machine

variable {nk : Nat}

/-- The j-th beat of a message: byte `M[8j + i]` in lane `i`, bytes past the end 0 (20_memory.md R67;
30_encoding.md R98). -/
def beatAt (M : List Byte) (j : Nat) : Word := ofLanes fun i => M.getD (8 * j + i) 0#8

/-- `word(j)`: the word made of bytes `M[8j .. 8j+7]` in the order `be`, bytes past the end 0
(45_hash_pipeline.md R205). -/
def wordAt (be : Bool) (M : List Byte) (j : Nat) : Word :=
  ofLanes fun i => M.getD (8 * j + (if be then 7 - i else i)) 0#8

/-- NH of the first `nw` words of chunk `c`, masked to 126 bits (45_hash_pipeline.md R205, R196). -/
def chunkNh (cfg : Config.Cfg) (k : Sized.KeyStore nk) (be : Bool) (M : List Byte) (c nw : Nat) : DWord :=
  let r := nh (fun i => wordAt be M (c * cfg.nhWords + i)) k.nhkAt nw
  (r.1 &&& Config.m62, r.2)

/-- The accumulator after the first `n` full chunks: the first in the add form, the others by `poly_step`
(45_hash_pipeline.md R205). -/
def fullChunks (cfg : Config.Cfg) (k : Sized.KeyStore nk) (be : Bool) (M : List Byte) (spk : DWord) : Nat → DWord
  | 0 => spk
  | c + 1 =>
    let a := fullChunks cfg k be M spk c
    let h := chunkNh cfg k be M c cfg.nhWords
    if c = 0 then add128 h.1 h.2 spk.1 spk.2 else polyStep a.1 a.2 spk.1 spk.2 h.1 h.2

/-- The accumulator that the finalizer gets (45_hash_pipeline.md R205): full chunks, then the partial last chunk
unless the short-message rule skips it. -/
def vhashAcc (cfg : Config.Cfg) (k : Sized.KeyStore nk) (M : List Byte) (seed : Word) (be : Bool) : DWord :=
  let spk := seededKey cfg k seed
  let n := M.length
  let full := n / cfg.nhBytes
  let rem := n % cfg.nhBytes
  let a := fullChunks cfg k be M spk full
  if 0 < rem ∧ ¬(cfg.shortSkip = true ∧ n < 16) then
    let h := chunkNh cfg k be M full (2 * ((rem + 15) / 16))
    if full = 0 ∧ cfg.partialOnlyFold = .add then add128 h.1 h.2 spk.1 spk.2
    else polyStep a.1 a.2 spk.1 spk.2 h.1 h.2
  else a

/-- `vhash(M, seed, be, K)`: the 64-bit tag of a whole call (45_hash_pipeline.md R205). -/
def vhash (cfg : Config.Cfg) (k : Sized.KeyStore nk) (M : List Byte) (seed : Word) (be : Bool) : Word :=
  let a := vhashAcc cfg k M seed be
  l3hash a.1 a.2 k.l3kh k.l3kl (bitLen cfg (BitVec.ofNat 64 M.length))

/-! ## Pseudo-instructions (30_encoding.md R98) -/

/-- `LDKEYS nhk[0..NK−1], pkh, pkl, l3h, l3l` (R98). -/
def ldKeys (nhk : Nat → Word) (pkh pkl l3h l3l : Word) (cfg : Config.Cfg := vhc64) : List Instr :=
  (List.range cfg.nk).map (fun i => .ldnhk i (nhk i)) ++
    [.ldpk .high pkh, .ldpk .low pkl, .ldl3k .high l3h, .ldl3k .low l3l, .keydone]

/-- `PUSHMSG b0 .. b(n−1)`: full beats, then one short beat for the rest (R98). -/
def pushMsg (M : List Byte) : List Instr :=
  (List.range (M.length / 8)).map (fun j => .push 8 (beatAt M j)) ++
    (if 0 < M.length % 8 then [.push (M.length % 8) (beatAt M (M.length / 8))] else [])

/-- `START flags ; seed`, `PUSHMSG`, `FINAL`: the part of `HASH` that forms the tag (R98). -/
def tagCommands (be tagw : Bool) (seed : Word) (M : List Byte) : List Instr :=
  .start be tagw seed :: (pushMsg M ++ [.final])

/-- `HASH flags, seed, b0 .. b(n−1)` (R98). -/
def hashCommands (be tagw : Bool) (seed : Word) (M : List Byte) : List Instr :=
  tagCommands be tagw seed M ++ [.rdtag]

/-- `CLR`: `MUL ; 0, 0` (R98). -/
def clrCommands : List Instr := [.mul 0#64 0#64]

end Sys2Proof.Machine
end

