-- ==== Sys2Proof/Safety.lean ====
section
/-! DEFINITION. What the spec says of every state a run reaches: the invariants of 10_state.md R33, R35, R36, R37, R39,
60_exceptions.md R240, R261, and when a run finished cleanly (70_reset_and_hazards.md R282). -/

namespace Sys2Proof.Safety

open Sys2Proof.Machine

/-- The L3 key words are below `p64` (10_state.md R33). -/
abbrev L3KeysBelowPrime (k : KeyStore) : Prop := k.l3kh < Config.p64 ∧ k.l3kl < Config.p64

/-- The seeded key is masked (10_state.md R35). -/
abbrev SeededKeyMasked (c : Call) : Prop := c.spkh &&& ~~~Config.mpoly = 0#64 ∧ c.spkl &&& ~~~Config.mpoly = 0#64

/-- The chunk registers inside a call (10_state.md R37): `WHELD` is the parity of `WCNT`; `WCNT` is at most `NHWORDS` and
equals it only in TAIL; `WCNT` is the number of words that the bytes of the current chunk make; `W0` is 0 when it holds
nothing. A full beat keeps `LEN` a multiple of 8 and a short beat ends that (45_hash_pipeline.md R193). -/
abbrev ChunkInCall (c : Call) : Prop :=
  c.wheld = decide (c.wcnt.toNat % 2 = 1) ∧ c.wcnt.toNat ≤ Config.nhWords ∧
  (c.wcnt.toNat = Config.nhWords → c.phase = .tail) ∧
  c.wcnt.toNat = (c.len.toNat % Config.nhBytes + 7) / 8 ∧
  (c.wheld = false → c.w0 = 0#64) ∧
  (c.phase = .msg ↔ c.len.toNat % 8 = 0)

/-- The chunk registers outside a call are 0 (10_state.md R37). -/
abbrev ChunkClear (c : Call) : Prop :=
  c.nhh = 0#64 ∧ c.nhl = 0#64 ∧ c.w0 = 0#64 ∧ c.wheld = false ∧ c.wcnt = 0#8

/-- `TAG` is below `p64`, and 0 unless the phase is DONE (10_state.md R39). -/
abbrev TagOk (c : Call) : Prop := c.tag < Config.p64 ∧ (c.phase ≠ .done → c.tag = 0#64)

/-- The error registers: a code 1 to 7 while `ERR` = 1, both 0 while `ERR` = 0 (60_exceptions.md R240; 10_state.md R29). -/
abbrev ErrorRegsOk (s : State) : Prop :=
  if s.err then 1 ≤ s.ecode.toNat ∧ s.ecode.toNat ≤ 7 else s.ecode = 0#4 ∧ s.ecmd = 0#32

/-- `KV` = 0 implies `PHASE` = IDLE (60_exceptions.md R261). -/
abbrev UnlockedIdle (s : State) : Prop := s.keys.kv = false → s.call.phase = .idle

/-- The invariant of the machine: every state a run reaches from reset meets it. -/
abbrev Inv (s : State) : Prop :=
  L3KeysBelowPrime s.keys ∧ SeededKeyMasked s.call ∧
  (s.call.phase.inCall = true → ChunkInCall s.call) ∧ (s.call.phase.inCall = false → ChunkClear s.call) ∧
  TagOk s.call ∧ (s.call.phase = .idle → s.call = Call.zero) ∧ ErrorRegsOk s ∧ UnlockedIdle s

/-- The bound of the accumulator: below `2^127 + 2^126 + 2^64` (10_state.md R36; 43_poly.md R173). -/
abbrev AccBounded (c : Call) : Prop := c.ah.toNat * 2 ^ 64 + c.al.toNat < 2 ^ 127 + 2 ^ 126 + 2 ^ 64

/-- A run that ends in `s` finished cleanly (70_reset_and_hazards.md R282). -/
abbrev FinishedCleanly (s : State) : Prop := s.err = false

end Sys2Proof.Safety
end

