-- ==== Sys2Proof/Certificates/Slice0/Obligations.lean ====
section
/-! DEFINITION. The statements for the provers, grouped as the spec groups its rules. Each docstring names the rule it
formalises. -/

open Sys2Proof Sys2Proof.Machine Sys2Proof.Safety

/-! ## Encoding (30_encoding.md) -/

/-- Decoding the encoding of a well-formed command gives the command back, every operand at every value the encoding
admits (R90 to R94). -/
def Obligations.DecodeOfEncode : Prop :=
  ∀ i : Instr, i.wf = true → decode (encode i) = .ok i

/-- A packet that decodes has one meaning and one spelling: the command is well formed and its encoding is the packet,
reserved bits, `ARG` and payload length included (R90 to R96). -/
def Obligations.DecodedCommandEncodesToItsPacket : Prop :=
  ∀ (p : Packet) (i : Instr), decode p = .ok i → i.wf = true ∧ encode i = p

/-- R94: the four decode checks in their order, against the command set of R93 as a table of numbers. -/
def Obligations.DecodeFollowsTheCheckOrder : Prop :=
  ∀ p : Packet,
    let opc := p.hdr.toNat / 2 ^ 24 % 2 ^ 8
    let arg := p.hdr.toNat % 2 ^ 8
    let reserved := p.hdr.toNat / 2 ^ 32 ≠ 0 ∨ p.hdr.toNat / 2 ^ 8 % 2 ^ 16 ≠ 0
    match rowOf opc with
    | none => decode p = .error .opc
    | some r =>
      (reserved → decode p = .error .field) ∧
      (¬reserved → r.argRange arg = false → decode p = .error .field) ∧
      (¬reserved → r.argRange arg = true → p.pay.length ≠ r.words arg → decode p = .error .len) ∧
      (¬reserved → r.argRange arg = true → p.pay.length = r.words arg →
        ∃ i, decode p = .ok i ∧ i.opcode.code.toNat = r.opc)

/-- R99: the header of a packet that decodes selects its own row of the table and no other; an opcode byte of no row is
E_OPC; an opcode byte of a row whose mask and match the header misses is E_FIELD. -/
def Obligations.HeaderSelectsOneRow : Prop :=
  ∀ p : Packet,
    (∀ i, decode p = .ok i → ∀ o : Opcode, o.selects p.header = true ↔ o = i.opcode) ∧
    ((∀ o : Opcode, o.code ≠ p.opc) → decode p = .error .opc) ∧
    ((∃ o : Opcode, o.code = p.opc) → (∀ o : Opcode, o.selects p.header = false) → decode p = .error .field)

/-- Words written out from the opcode map of R93, one of each family, decode to the commands they stand for. -/
def Obligations.WrittenWordsDecode : Prop :=
  decode ⟨0x0000000001000005#64, []⟩ = .ok (.rd .ecmd) ∧
  decode ⟨0x0000000010000003#64, [0x0123456789ABCDEF#64]⟩ = .ok (.ldnhk 3 0x0123456789ABCDEF#64) ∧
  decode ⟨0x0000000012000001#64, [7#64]⟩ = .ok (.ldl3k .low 7#64) ∧
  decode ⟨0x0000000021000000#64, [1#64, 2#64, 3#64, 4#64]⟩ = .ok (.add128 1#64 2#64 3#64 4#64) ∧
  decode ⟨0x0000000023000002#64, [2#64, 3#64]⟩ = .ok (.nh [2#64, 3#64]) ∧
  decode ⟨0x0000000030000002#64, [9#64]⟩ = .ok (.start false true 9#64) ∧
  decode ⟨0x0000000031000003#64, [0x636261#64]⟩ = .ok (.push 3 0x636261#64) ∧
  decode ⟨0x0000000034000000#64, []⟩ = .ok .rdtag

/-! ## The step (20_memory.md R63, 60_exceptions.md R245 to R249, 70_reset_and_hazards.md R270, R282) -/

/-- R62, R63: the next step takes exactly the beats of the next packet, whatever its header and its length are, and the
packet after it starts at the right beat. -/
def Obligations.PacketsAreFramedByLast : Prop :=
  ∀ (s : State) (p : Packet) (rest : List PortInput), s.cmdIn = packetBeats p ++ rest →
    step s = execPacket p { s with cmdIn := rest } ∧ ∀ t, step s = .next t → t.cmdIn = rest

/-- A step runs the decoded command: when the packet presented next decodes to `i` and the gate of R245 lets it pass, the
step is `exec i` on the state whose input has moved past the packet. -/
def Obligations.StepRunsDecodedCommand : Prop :=
  ∀ (s : State) (p : Packet) (rest : List PortInput) (i : Instr),
    s.cmdIn = packetBeats p ++ rest → decode p = .ok i →
    (s.err = false ∨ i = .nop ∨ (∃ sel, i = .rd sel) ∨ i = .clrerr ∨ i = .abort) →
    step s = exec i { s with cmdIn := rest }

/-- R245, R249: while `ERR` = 1 every packet that is no well-formed NOP, RD, CLRERR or ABORT is consumed whole and
discarded: nothing but the input changes, and the first error stays recorded. -/
def Obligations.GateDiscardsWhileErrorRecorded : Prop :=
  ∀ (s : State) (p : Packet) (rest : List PortInput),
    s.cmdIn = packetBeats p ++ rest → s.err = true →
    (∀ i, decode p = .ok i → i ≠ .nop ∧ (∀ sel, i ≠ .rd sel) ∧ i ≠ .clrerr ∧ i ≠ .abort) →
    step s = .next { s with cmdIn := rest }

/-- R94, R246: with no error recorded, a malformed packet records its error and has no other effect. -/
def Obligations.MalformedPacketRecordsItsError : Prop :=
  ∀ (s : State) (p : Packet) (rest : List PortInput) (e : ErrCode),
    s.cmdIn = packetBeats p ++ rest → s.err = false → decode p = .error e →
    (e = .opc ∨ e = .field ∨ e = .len) ∧
    step s = .next { s with
      err := true, ecode := (match e with | .opc => 1#4 | .field => 2#4 | _ => 3#4),
      ecmd := p.hdr.setWidth 32, cmdIn := rest }

/-- R246: whatever packet raises an error, by its form or by its command's rule, the error registers are written, the
header recorded is the packet's, no other register changes and no response is produced; `err_o` follows `ERR`. -/
def Obligations.RefusedPacketHasNoOtherEffect : Prop :=
  ∀ (s t : State) (p : Packet) (rest : List PortInput),
    s.cmdIn = packetBeats p ++ rest → s.err = false → step s = .next t → t.err = true →
    (∃ e, t = { s with err := true, ecode := errCodeValue e, ecmd := p.hdr.setWidth 32, cmdIn := rest }) ∧
    errO t = true

/-- R241, R244 step 5, R242: with no error recorded, each command's state checks, in their order, and what they record. -/
def Obligations.StateChecksRaiseTheirError : Prop :=
  ∀ s : State, s.err = false →
    let raised := fun (n : BitVec 4) (i : Instr) =>
      (.next { s with err := true, ecode := n, ecmd := headerOf i.opcode i.arg } : Result)
    (s.keys.kv = true →
      (∀ i w, exec (.ldnhk i w) s = raised 4 (.ldnhk i w)) ∧
      (∀ h w, exec (.ldpk h w) s = raised 4 (.ldpk h w)) ∧
      (∀ h w, exec (.ldl3k h w) s = raised 4 (.ldl3k h w)) ∧
      exec .keydone s = raised 4 .keydone) ∧
    (s.keys.kv = false →
      (∀ h w, 0xFFFFFFFFFFFFFEFF ≤ w.toNat → exec (.ldl3k h w) s = raised 7 (.ldl3k h w)) ∧
      (∀ m, exec (.nh m) s = raised 5 (.nh m)) ∧
      (∀ be tagw seed, exec (.start be tagw seed) s = raised 5 (.start be tagw seed))) ∧
    (s.call.phase = .msg ∨ s.call.phase = .tail →
      (s.keys.kv = true → ∀ be tagw seed, exec (.start be tagw seed) s = raised 6 (.start be tagw seed)) ∧
      exec .keyclr s = raised 6 .keyclr) ∧
    (s.call.phase ≠ .msg → ∀ nb beat, exec (.push nb beat) s = raised 6 (.push nb beat)) ∧
    (s.call.phase = .idle ∨ s.call.phase = .done → exec .final s = raised 6 .final) ∧
    (s.call.phase ≠ .done → exec .rdtag s = raised 6 .rdtag)

/-- R248: nothing is restored because nothing was changed: CLRERR after a refused command gives the state before it. -/
def Obligations.ClrerrUndoesARefusal : Prop :=
  ∀ (i : Instr) (s t : State), s.err = false → s.ecode = 0#4 → s.ecmd = 0#32 →
    exec i s = .next t → t.err = true → exec .clrerr t = .next s

/-- R232, R249: CLRERR and reset are the only ways out of the error state, and until then the first error stays. -/
def Obligations.ErrorStateLeftOnlyByClrerrOrReset : Prop :=
  ∀ s t : State, s.err = true → step s = .next t →
    (t.err = true ∧ t.ecode = s.ecode ∧ t.ecmd = s.ecmd) ∨
    (∃ rest, arrival s.cmdIn = .reset rest) ∨
    (∃ p rest, arrival s.cmdIn = .packet p rest ∧ decode p = .ok .clrerr)

/-- R282: every input in every state has a next state; the block never stops and is never stuck. -/
def Obligations.EveryStepHasANextState : Prop :=
  ∀ s : State, ∃ t, step s = .next t

/-- R41, R66: a step other than a reset appends at most one response, only for RD and RDTAG, and removes none. -/
def Obligations.ResponsesAppendInOrder : Prop :=
  ∀ s t : State, step s = .next t → (∀ rest, arrival s.cmdIn ≠ .reset rest) →
    t.rsp = s.rsp ∨
    ∃ v p rest i, t.rsp = s.rsp ++ [v] ∧ arrival s.cmdIn = .packet p rest ∧ decode p = .ok i ∧
      (i = .rdtag ∨ ∃ sel, i = .rd sel)

/-- R270, R271: a reset drops the beats of a packet partly received and gives the reset state, whatever the state was;
what the host presents after it is kept. -/
def Obligations.ResetDropsThePartialPacket : Prop :=
  ∀ (s : State) (ds : List Word) (rest : List PortInput),
    s.cmdIn = ds.map (fun d => .beat d false) ++ .rst :: rest →
    step s = .next { State.reset with cmdIn := rest }

/-- The model's choice (log 2), from 70_reset_and_hazards.md R281 and 20_memory.md R63: while no complete packet is
presented a step changes nothing. -/
def Obligations.IncompletePacketWaits : Prop :=
  ∀ (s : State) (ds : List Word), s.cmdIn = ds.map (fun d => .beat d false) → step s = .next s

/-- 10_state.md R42: after reset every register of R20 is 0, the phase is IDLE and `RSP` is empty. -/
def Obligations.ResetIsAllZero : Prop :=
  (∀ i, State.reset.keys.nhkAt i = 0#64) ∧
  State.reset.keys.pkh = 0#64 ∧ State.reset.keys.pkl = 0#64 ∧
  State.reset.keys.l3kh = 0#64 ∧ State.reset.keys.l3kl = 0#64 ∧ State.reset.keys.kv = false ∧
  State.reset.call.spkh = 0#64 ∧ State.reset.call.spkl = 0#64 ∧ State.reset.call.ah = 0#64 ∧
  State.reset.call.al = 0#64 ∧ State.reset.call.nhh = 0#64 ∧ State.reset.call.nhl = 0#64 ∧
  State.reset.call.w0 = 0#64 ∧ State.reset.call.wheld = false ∧ State.reset.call.wcnt = 0#8 ∧
  State.reset.call.fb = false ∧ State.reset.call.len = 0#64 ∧ State.reset.call.be = false ∧
  State.reset.call.tagw = false ∧ State.reset.call.tag = 0#64 ∧ State.reset.call.phase = .idle ∧
  State.reset.rh = 0#64 ∧ State.reset.rl = 0#64 ∧ State.reset.err = false ∧ State.reset.ecode = 0#4 ∧
  State.reset.ecmd = 0#32 ∧ State.reset.rsp = []

/-! ## System commands (46_system.md) -/

/-- R230, R232, 45_hash_pipeline.md R202: NOP changes nothing, CLRERR only the error registers, ABORT only the per-call
registers, all in every state. -/
def Obligations.NopClrerrAbortComplete : Prop :=
  ∀ s : State,
    exec .nop s = .next s ∧
    exec .clrerr s = .next { s with err := false, ecode := 0#4, ecmd := 0#32 } ∧
    exec .abort s = .next { s with call :=
      { spkh := 0#64, spkl := 0#64, ah := 0#64, al := 0#64, nhh := 0#64, nhl := 0#64, w0 := 0#64, wheld := false,
        wcnt := 0#8, fb := false, len := 0#64, be := false, tagw := false, tag := 0#64, phase := .idle } }

/-- R231, 10_state.md R26 to R29: RD completes in every state, appends the selected register and changes nothing else;
STATUS holds its fields at the bits of R26. -/
def Obligations.RdReturnsTheSelectedRegister : Prop :=
  ∀ (sel : RdSel) (s : State), ∃ v, exec (.rd sel) s = .next { s with rsp := s.rsp ++ [v] } ∧
    match sel with
    | .status => v.toNat = s.keys.kv.toNat +
        2 * (match s.call.phase with | .idle => 0 | .msg => 1 | .tail => 2 | .done => 3) +
        8 * s.err.toNat + 16 * s.ecode.toNat + 256 * s.call.be.toNat + 512 * s.call.tagw.toNat
    | .rl => v = s.rl
    | .rh => v = s.rh
    | .len => v = s.call.len
    | .id => v = 0x0000101000015648#64
    | .ecmd => v.toNat = s.ecmd.toNat

/-! ## Arithmetic kernel (40_arith_kernel.md) -/

/-- R120 through MUL (R127): the result pair is the exact 128-bit product and nothing else changes. -/
def Obligations.MulGivesTheExactProduct : Prop :=
  ∀ (a b : Word) (s : State), ∃ hi lo, exec (.mul a b) s = .next { s with rh := hi, rl := lo } ∧
    hi.toNat * 2 ^ 64 + lo.toNat = a.toNat * b.toNat ∧
    hi.toNat = a.toNat * b.toNat / 2 ^ 64 ∧ lo.toNat = a.toNat * b.toNat % 2 ^ 64 ∧
    a.toNat * b.toNat ≤ 2 ^ 128 - 2 ^ 65 + 1 ∧ hi.toNat ≤ 0xFFFFFFFFFFFFFFFE

/-- R121 through ADD128 (R128): the sum modulo 2^128, the carry passing from the low to the high word, the carry out of
the high word kept nowhere. -/
def Obligations.Add128WrapsAt128Bits : Prop :=
  ∀ (aHi aLo bHi bLo : Word) (s : State), ∃ hi lo,
    exec (.add128 aHi aLo bHi bLo) s = .next { s with rh := hi, rl := lo } ∧
    hi.toNat * 2 ^ 64 + lo.toNat =
      (aHi.toNat * 2 ^ 64 + aLo.toNat + (bHi.toNat * 2 ^ 64 + bLo.toNat)) % 2 ^ 128 ∧
    lo = aLo + bLo ∧ hi = aHi + bHi + (if lo.toNat < aLo.toNat then 1#64 else 0#64)

/-- R122 through FMA (R129): the product accumulates into `R` modulo 2^128; from `R` = 0, FMA is MUL. -/
def Obligations.FmaAccumulatesModulo128 : Prop :=
  ∀ (a b : Word) (s : State),
    (∃ hi lo, exec (.fma a b) s = .next { s with rh := hi, rl := lo } ∧
      hi.toNat * 2 ^ 64 + lo.toNat = (s.rh.toNat * 2 ^ 64 + s.rl.toNat + a.toNat * b.toNat) % 2 ^ 128) ∧
    (s.rh = 0#64 → s.rl = 0#64 → exec (.fma a b) s = exec (.mul a b) s)

/-- 10_state.md R22, 40_arith_kernel.md R126: the unit commands write `R` and nothing else when they are not refused, and
every other command leaves `R` as it was. -/
def Obligations.OnlyUnitCommandsWriteTheResult : Prop :=
  ∀ (i : Instr) (s t : State), s.err = false → exec i s = .next t →
    if i.opcode ∈ [Opcode.mul, .add128, .fma, .nh, .poly, .l3] then
      t.err = true ∨ t = { s with rh := t.rh, rl := t.rl }
    else t.rh = s.rh ∧ t.rl = s.rl

/-! ## NH (42_nh.md) -/

/-- R160 through NH (R167): with the key store locked, `R` becomes the sum over the word pairs of the product of the two
keyed words, modulo 2^128, all 128 bits of it. -/
def Obligations.NhIsTheKeyedSumOfProducts : Prop :=
  ∀ (m : List Word) (s : State), (Instr.nh m).wf = true → s.keys.kv = true →
    ∃ hi lo, exec (.nh m) s = .next { s with rh := hi, rl := lo } ∧
      hi.toNat * 2 ^ 64 + lo.toNat =
        (∑ i ∈ Finset.range (m.length / 2),
          (((m.getD (2 * i) 0#64).toNat + (s.keys.nhkAt (2 * i)).toNat) % 2 ^ 64) *
          (((m.getD (2 * i + 1) 0#64).toNat + (s.keys.nhkAt (2 * i + 1)).toNat) % 2 ^ 64)) % 2 ^ 128

/-- R165: the order in which the pair products are added does not affect the result. -/
def Obligations.NhPairOrderIsFree : Prop :=
  ∀ (m k : Nat → Word) (n : Nat) (order : List Nat), order.Perm (List.range n) →
    order.foldl (fun t i => mulc t.1 t.2 (m (2 * i) + k (2 * i)) (m (2 * i + 1) + k (2 * i + 1))) (0#64, 0#64) =
      nh m k (2 * n)

/-- R166: taking the words of a chunk one at a time gives NH of the words taken, after every even number of them. -/
def Obligations.StreamedNhEqualsNh : Prop :=
  ∀ (k : KeyStore) (c : Call) (ws : List Word),
    c.nhh = 0#64 → c.nhl = 0#64 → c.wheld = false → c.wcnt = 0#8 →
    ws.length ≤ Config.nhWords → ws.length % 2 = 0 →
    let d := ws.foldl (fun c w => absorb k w c) c
    (d.nhh, d.nhl) = nh (fun i => ws.getD i 0#64) k.nhkAt ws.length ∧
      d.wcnt.toNat = ws.length ∧ d.wheld = false

/-! ## POLY (43_poly.md) -/

/-- R175: POLY completes for every operand, within or outside the contract of R172, writes the value of the sequence of
R170 into `R`, and changes nothing else. -/
def Obligations.PolyWritesThePolyStep : Prop :=
  ∀ (ah al kh kl mh ml : Word) (s : State),
    exec (.poly ah al kh kl mh ml) s =
      .next { s with rh := (polyStep ah al kh kl mh ml).1, rl := (polyStep ah al kh kl mh ml).2 }

/-- R173 through POLY (R175): under the contract of R172 the result is congruent to `acc·key + msg` modulo 2^127 − 1 and
below `2^127 + 2^126 + 2^64`, for every 128-bit accumulator. -/
def Obligations.PolyIsMultiplyAddModuloP127 : Prop :=
  ∀ (ah al kh kl mh ml : Word) (s : State),
    kh &&& ~~~Config.mpoly = 0#64 → kl &&& ~~~Config.mpoly = 0#64 → mh.toNat ≤ 2 ^ 62 - 1 →
    ∃ hi lo, exec (.poly ah al kh kl mh ml) s = .next { s with rh := hi, rl := lo } ∧
      hi.toNat * 2 ^ 64 + lo.toNat ≡
        (ah.toNat * 2 ^ 64 + al.toNat) * (kh.toNat * 2 ^ 64 + kl.toNat) + (mh.toNat * 2 ^ 64 + ml.toNat)
        [MOD 2 ^ 127 - 1] ∧
      hi.toNat * 2 ^ 64 + lo.toNat < 2 ^ 127 + 2 ^ 126 + 2 ^ 64

/-! ## L3 (44_l3.md) -/

/-- R183 through L3 (R185): for every five words L3 completes, sets `RH` to 0 and `RL` to a value below `p64`, and
changes nothing else. -/
def Obligations.L3ResultIsBelowThePrime : Prop :=
  ∀ (p1 p2 k1 k2 len : Word) (s : State), ∃ tag,
    exec (.l3 p1 p2 k1 k2 len) s = .next { s with rh := 0#64, rl := tag } ∧ tag = l3hash p1 p2 k1 k2 len ∧
    tag.toNat < 2 ^ 64 - 257

/-- R182 through L3 (R185): the closed form of the tag for every bit length below 2^63. The bound of the quotient is the
one that follows from R180: R182's own words say "below", which fails by one when `X` is at least 2^127 − 2^63 (log 15). -/
def Obligations.L3ClosedForm : Prop :=
  ∀ (p1 p2 k1 k2 len : Word) (s : State), len.toNat < 2 ^ 63 →
    let S := p1.toNat % 2 ^ 63 * 2 ^ 64 + p2.toNat + len.toNat * 2 ^ 64 + p1.toNat / 2 ^ 63
    let X := S % (2 ^ 127 - 1)
    let q := X / (2 ^ 64 - 2 ^ 32)
    let r := X % (2 ^ 64 - 2 ^ 32)
    let p := 2 ^ 64 - 257
    S < 2 ^ 128 ∧
    S ≡ p1.toNat * 2 ^ 64 + p2.toNat + len.toNat * 2 ^ 64 [MOD 2 ^ 127 - 1] ∧
    q ≤ 2 ^ 63 + 2 ^ 31 ∧
    ∃ tag, exec (.l3 p1 p2 k1 k2 len) s = .next { s with rh := 0#64, rl := tag } ∧
      tag.toNat = ((q + k1.toNat) % p) * ((r + k2.toNat) % p) % p

/-! ## Key store (41_key_store.md) -/

/-- R141: with `KV` = 0 LDNHK writes the key word of its index and nothing else. -/
def Obligations.LdnhkWritesOneKeyWord : Prop :=
  ∀ (i : Nat) (w : Word) (s : State), (Instr.ldnhk i w).wf = true → s.keys.kv = false →
    ∃ t, exec (.ldnhk i w) s = .next t ∧ t = { s with keys := { s.keys with nhk := t.keys.nhk } } ∧
      t.keys.nhkAt i = w ∧ ∀ j, j ≠ i → t.keys.nhkAt j = s.keys.nhkAt j

/-- R142, R143: with `KV` = 0 LDPK and LDL3K write the selected half and nothing else; LDPK any word, unmasked, LDL3K a
word below `p64`. -/
def Obligations.LdpkAndLdl3kWriteOneHalf : Prop :=
  ∀ (w : Word) (s : State), s.keys.kv = false →
    exec (.ldpk .high w) s = .next { s with keys := { s.keys with pkh := w } } ∧
    exec (.ldpk .low w) s = .next { s with keys := { s.keys with pkl := w } } ∧
    (w.toNat < 0xFFFFFFFFFFFFFEFF →
      exec (.ldl3k .high w) s = .next { s with keys := { s.keys with l3kh := w } } ∧
      exec (.ldl3k .low w) s = .next { s with keys := { s.keys with l3kl := w } })

/-- R144, R145: KEYDONE with `KV` = 0 sets `KV` and nothing else; KEYCLR outside a call zeroes and unlocks the key store,
clears the per-call registers, and leaves the result, the error registers and the responses. -/
def Obligations.KeydoneLocksAndKeyclrZeroes : Prop :=
  ∀ s : State,
    (s.keys.kv = false → exec .keydone s = .next { s with keys := { s.keys with kv := true } }) ∧
    (s.call.phase = .idle ∨ s.call.phase = .done →
      ∃ t, exec .keyclr s = .next t ∧ t = { s with keys := t.keys, call := State.reset.call } ∧
        (∀ i, t.keys.nhkAt i = 0#64) ∧ t.keys.pkh = 0#64 ∧ t.keys.pkl = 0#64 ∧ t.keys.l3kh = 0#64 ∧
        t.keys.l3kl = 0#64 ∧ t.keys.kv = false)

/-- 10_state.md R34, R140: a locked key store is never partly changed: after any step from `KV` = 1 it is the same, or it
is zero and unlocked with no call and no tag left. -/
def Obligations.LockedKeysAreNeverPartlyChanged : Prop :=
  ∀ s t : State, s.keys.kv = true → step s = .next t →
    t.keys = s.keys ∨ (t.keys = State.reset.keys ∧ t.call = State.reset.call)

/-- 30_encoding.md R98, 41_key_store.md R140: `LDKEYS` on an unlocked store loads the 20 words it is given and locks the
store, whatever the store held. -/
def Obligations.LdkeysLoadsAndLocksTheStore : Prop :=
  ∀ (nhk : Nat → Word) (pkh pkl l3h l3l : Word) (s : State),
    s.err = false → s.keys.kv = false → l3h < Config.p64 → l3l < Config.p64 →
    ∃ t, runCommands (ldKeys nhk pkh pkl l3h l3l) s = .next t ∧ t = { s with keys := t.keys } ∧
      (∀ i, i < 16 → t.keys.nhkAt i = nhk i) ∧
      t.keys.pkh = pkh ∧ t.keys.pkl = pkl ∧ t.keys.l3kh = l3h ∧ t.keys.l3kl = l3l ∧ t.keys.kv = true

/-! ## Hash pipeline (45_hash_pipeline.md) -/

/-- R191: START with the store locked and no call in progress begins a call: the seeded key is the key XORed with
`SEEDMIX` of the seed, then masked; the accumulator starts as it; every other per-call register is 0; nothing else
changes. No clause uses the default of `SEEDMIX` (93_implementation_defined.md U3). -/
def Obligations.StartSeedsTheCall : Prop :=
  ∀ (be tagw : Bool) (seed : Word) (s : State), s.keys.kv = true →
    (s.call.phase = .idle ∨ s.call.phase = .done) →
    let kh := (s.keys.pkh ^^^ (vhc64.seedMix seed).1) &&& 0x1FFFFFFF1FFFFFFF#64
    let kl := (s.keys.pkl ^^^ (vhc64.seedMix seed).2) &&& 0x1FFFFFFF1FFFFFFF#64
    exec (.start be tagw seed) s = .next { s with call :=
      { spkh := kh, spkl := kl, ah := kh, al := kl, nhh := 0#64, nhl := 0#64, w0 := 0#64, wheld := false, wcnt := 0#8,
        fb := false, len := 0#64, be := be, tagw := tagw, tag := 0#64, phase := .msg } }

/-- 10_state.md R35: whatever `SEEDMIX` is, the seeded key is masked: each word below 2^61 and each 32-bit half below 2^29. -/
def Obligations.SeededKeyIsMaskedForEverySeedmix : Prop :=
  ∀ (cfg : Config.Cfg) (k : KeyStore) (be tagw : Bool) (seed : Word),
    let c := startCall cfg k be tagw seed
    SeededKeyMasked c ∧ c.spkh.toNat < 2 ^ 61 ∧ c.spkl.toNat < 2 ^ 61 ∧
      c.spkh.toNat % 2 ^ 32 < 2 ^ 29 ∧ c.spkl.toNat % 2 ^ 32 < 2 ^ 29 ∧
      c.spkh.toNat / 2 ^ 32 < 2 ^ 29 ∧ c.spkl.toNat / 2 ^ 32 < 2 ^ 29

/-- R192, R210: the default of `SEEDMIX` rotates the seed right by 24 for the high word and leaves it for the low word,
and under it distinct seeds give distinct seeded keys, for every key store. The default is a value the spec marks as its
own and as open (log 7); no other statement rests on it. -/
def Obligations.DefaultSeedmixKeepsSeedsApart : Prop :=
  (∀ seed : Word, vhc64.seedMix seed = (seed.rotateRight 24, seed)) ∧
  ∀ (k : KeyStore) (a b : Word), seededKey vhc64 k a = seededKey vhc64 k b → a = b

/-- 20_memory.md R68: the message word of a beat as a sum of its valid bytes, in either byte order. -/
def Obligations.MessageWordIsTheByteSum : Prop :=
  ∀ (beat : Word) (nb : Nat), nb ≤ 8 →
    (wordOf beat nb false).toNat =
      ∑ i ∈ Finset.range nb, beat.toNat / 2 ^ (8 * i) % 2 ^ 8 * 2 ^ (8 * i) ∧
    (wordOf beat nb true).toNat =
      ∑ i ∈ Finset.range nb, beat.toNat / 2 ^ (8 * i) % 2 ^ 8 * 2 ^ (8 * (7 - i))

/-- 20_memory.md R71: two PUSH commands that differ only in lanes `nb` to 7 leave identical states. -/
def Obligations.UnusedLanesHaveNoEffect : Prop :=
  ∀ (nb : Nat) (b₁ b₂ : Word) (s : State), (Instr.push nb b₁).wf = true →
    (∀ i, i < nb → laneOf b₁ i = laneOf b₂ i) → exec (.push nb b₁) s = exec (.push nb b₂) s

/-- R193: in MSG a PUSH completes: `LEN` counts its bytes modulo 2^64, a short beat goes to TAIL and a full one stays in
MSG, the accumulator and `FB` change only when a full beat is the `NHWORDS`-th word, and the seeded key, the flags, the
tag and everything outside the call stay. -/
def Obligations.PushTakesItsBytes : Prop :=
  ∀ (nb : Nat) (beat : Word) (s : State), (Instr.push nb beat).wf = true → s.call.phase = .msg →
    ∃ c, exec (.push nb beat) s = .next { s with call := c } ∧
      c.len.toNat = (s.call.len.toNat + nb) % 2 ^ 64 ∧ c.phase = (if nb < 8 then .tail else .msg) ∧
      c.spkh = s.call.spkh ∧ c.spkl = s.call.spkl ∧ c.be = s.call.be ∧ c.tagw = s.call.tagw ∧ c.tag = s.call.tag ∧
      (nb < 8 ∨ s.call.wcnt.toNat + 1 ≠ 16 → c.ah = s.call.ah ∧ c.al = s.call.al ∧ c.fb = s.call.fb)

/-- R194 in PUSH (R193), no chunk completed: the first word of a pair is held; the second enters the NH unit with the
held one, each plus its key word modulo 2^64, and the product is added modulo 2^128. For the second word of a message of
9 to 15 bytes this is R194 against R203: the model's choice, log 17. -/
def Obligations.PushAbsorbsOneWord : Prop :=
  ∀ (nb : Nat) (beat : Word) (s : State), (Instr.push nb beat).wf = true → s.call.phase = .msg →
    nb < 8 ∨ s.call.wcnt.toNat + 1 ≠ 16 →
    let w := wordOf beat nb s.call.be
    let len := s.call.len + BitVec.ofNat 64 nb
    let phase := if nb < 8 then Phase.tail else Phase.msg
    (s.call.wheld = false →
      exec (.push nb beat) s = .next { s with call :=
        { s.call with w0 := w, wheld := true, wcnt := s.call.wcnt + 1#8, len := len, phase := phase } }) ∧
    (s.call.wheld = true → s.call.wcnt.toNat % 2 = 1 →
      ∃ hi lo, exec (.push nb beat) s = .next { s with call :=
          { s.call with nhh := hi, nhl := lo, w0 := 0#64, wheld := false, wcnt := s.call.wcnt + 1#8, len := len,
                        phase := phase } } ∧
        hi.toNat * 2 ^ 64 + lo.toNat =
          (s.call.nhh.toNat * 2 ^ 64 + s.call.nhl.toNat +
            (s.call.w0.toNat + (s.keys.nhkAt (s.call.wcnt.toNat - 1)).toNat) % 2 ^ 64 *
            ((w.toNat + (s.keys.nhkAt s.call.wcnt.toNat).toNat) % 2 ^ 64)) % 2 ^ 128)

/-- R193, R196, R197, R200: the full beat that completes a chunk folds it at once: the first full chunk as the NH total
modulo 2^126 plus the seeded key, a later one as `acc·key + NH` modulo 2^127 − 1; the chunk registers are 0 after it. -/
def Obligations.PushFoldsACompleteChunk : Prop :=
  ∀ (beat : Word) (s : State), s.call.phase = .msg → s.call.wheld = true → s.call.wcnt = 15#8 → SeededKeyMasked s.call →
    let x := (s.call.w0.toNat + (s.keys.nhkAt 14).toNat) % 2 ^ 64
    let y := ((wordOf beat 8 s.call.be).toNat + (s.keys.nhkAt 15).toNat) % 2 ^ 64
    let N := (s.call.nhh.toNat * 2 ^ 64 + s.call.nhl.toNat + x * y) % 2 ^ 126
    let K := s.call.spkh.toNat * 2 ^ 64 + s.call.spkl.toNat
    let A := s.call.ah.toNat * 2 ^ 64 + s.call.al.toNat
    ∃ hi lo, exec (.push 8 beat) s = .next { s with call :=
        { s.call with ah := hi, al := lo, fb := true, nhh := 0#64, nhl := 0#64, w0 := 0#64, wheld := false, wcnt := 0#8,
                      len := s.call.len + 8#64 } } ∧
      (s.call.fb = false → hi.toNat * 2 ^ 64 + lo.toNat = N + K) ∧
      (s.call.fb = true → hi.toNat * 2 ^ 64 + lo.toNat ≡ A * K + N [MOD 2 ^ 127 - 1] ∧
        hi.toNat * 2 ^ 64 + lo.toNat < 2 ^ 127 + 2 ^ 126 + 2 ^ 64)

/-- R198, R199, R201, R203: FINAL with no word of a last chunk, or with fewer than 16 message bytes, folds nothing: the
accumulator goes to the finalizer as it is, with the total bit length modulo 2^64. -/
def Obligations.FinalWithoutAFold : Prop :=
  ∀ s : State, s.call.phase = .msg ∨ s.call.phase = .tail → s.call.wcnt = 0#8 ∨ s.call.len.toNat < 16 →
    ∃ bits : Word, bits.toNat = 8 * s.call.len.toNat % 2 ^ 64 ∧
      exec .final s = .next { s with call :=
        { s.call with nhh := 0#64, nhl := 0#64, w0 := 0#64, wheld := false, wcnt := 0#8, phase := .done,
                      tag := l3hash s.call.ah s.call.al s.keys.l3kh s.keys.l3kl bits } }

/-- R198, R200, R201: FINAL with words of a last chunk and 16 or more message bytes pads an odd word count with the
number 0, folds the NH total modulo 2^126 in the `poly_step` form, and gives the accumulator to the finalizer. -/
def Obligations.FinalFoldsTheLastChunk : Prop :=
  ∀ s : State, s.call.phase = .msg ∨ s.call.phase = .tail → s.call.wcnt ≠ 0#8 → 16 ≤ s.call.len.toNat →
    (s.call.wheld = true → s.call.wcnt.toNat % 2 = 1) → SeededKeyMasked s.call →
    let x := (s.call.w0.toNat + (s.keys.nhkAt (s.call.wcnt.toNat - 1)).toNat) % 2 ^ 64
    let y := (s.keys.nhkAt s.call.wcnt.toNat).toNat
    let N := (s.call.nhh.toNat * 2 ^ 64 + s.call.nhl.toNat + (if s.call.wheld then x * y else 0)) % 2 ^ 126
    let K := s.call.spkh.toNat * 2 ^ 64 + s.call.spkl.toNat
    let A := s.call.ah.toNat * 2 ^ 64 + s.call.al.toNat
    ∃ hi lo bits : Word, bits.toNat = 8 * s.call.len.toNat % 2 ^ 64 ∧
      exec .final s = .next { s with call :=
        { s.call with ah := hi, al := lo, fb := true, nhh := 0#64, nhl := 0#64, w0 := 0#64, wheld := false, wcnt := 0#8,
                      phase := .done, tag := l3hash hi lo s.keys.l3kh s.keys.l3kl bits } } ∧
      hi.toNat * 2 ^ 64 + lo.toNat ≡ A * K + N [MOD 2 ^ 127 - 1] ∧
      hi.toNat * 2 ^ 64 + lo.toNat < 2 ^ 127 + 2 ^ 126 + 2 ^ 64

/-- R212: `TAG` is below `p64` after every FINAL, whatever the accumulator and the keys are. -/
def Obligations.TagBelowPrimeAfterFinal : Prop :=
  ∀ s : State, s.call.phase = .msg ∨ s.call.phase = .tail →
    ∃ t, exec .final s = .next t ∧ t = { s with call := t.call } ∧ t.call.phase = .done ∧
      t.call.tag.toNat < 2 ^ 64 - 257

/-- R204, 20_memory.md R69: in DONE RDTAG appends one beat and changes nothing else; its lanes are the bytes of the tag,
or of its low half with zeros above, in the byte order of the call. -/
def Obligations.RdtagReturnsTheTagBytes : Prop :=
  ∀ s : State, s.call.phase = .done →
    ∃ v, exec .rdtag s = .next { s with rsp := s.rsp ++ [v] } ∧
      (s.call.tagw = false →
        ∀ i, i < 8 → laneOf v i = laneOf s.call.tag (if s.call.be then 7 - i else i)) ∧
      (s.call.tagw = true →
        (∀ i, i < 4 → laneOf v i = laneOf s.call.tag (if s.call.be then 3 - i else i)) ∧
        (∀ i, 4 ≤ i → i < 8 → laneOf v i = 0#8))

/-- R190: every change of `PHASE` by a command is one of the table's; nothing else changes it. -/
def Obligations.PhaseChangesOnlyAsListed : Prop :=
  ∀ (i : Instr) (s t : State), exec i s = .next t → t.call.phase ≠ s.call.phase →
    ((s.call.phase = .idle ∨ s.call.phase = .done) ∧ s.keys.kv = true ∧ t.call.phase = .msg ∧
      ∃ be tagw seed, i = .start be tagw seed) ∨
    (s.call.phase = .msg ∧ t.call.phase = .tail ∧ ∃ nb beat, nb < 8 ∧ i = .push nb beat) ∨
    ((s.call.phase = .msg ∨ s.call.phase = .tail) ∧ t.call.phase = .done ∧ i = .final) ∨
    (t.call.phase = .idle ∧ i = .abort) ∨
    (s.call.phase = .done ∧ t.call.phase = .idle ∧ i = .keyclr)

/-- R190, 40_arith_kernel.md R126, 10_state.md R25: the commands that are no START, PUSH, FINAL, ABORT or KEYCLR leave
every per-call register, and the commands that are no key-store command leave the key store. -/
def Obligations.OtherCommandsLeaveCallAndKeys : Prop :=
  ∀ (i : Instr) (s t : State), exec i s = .next t →
    (i.opcode ∉ [Opcode.start, .push, .final, .abort, .keyclr] → t.call = s.call) ∧
    (i.opcode ∉ [Opcode.ldnhk, .ldpk, .ldl3k, .keydone, .keyclr] → t.keys = s.keys)

/-- 20_memory.md R77, R208: what a command makes of the key store and the call depends on them and on the command alone,
and START forgets the call before it. -/
def Obligations.CallsDependOnKeysAndCallAlone : Prop :=
  (∀ (i : Instr) (s₁ s₂ t₁ t₂ : State), s₁.keys = s₂.keys → s₁.call = s₂.call →
    exec i s₁ = .next t₁ → exec i s₂ = .next t₂ → t₁.keys = t₂.keys ∧ t₁.call = t₂.call) ∧
  (∀ (be tagw : Bool) (seed : Word) (s₁ s₂ t₁ t₂ : State), s₁.keys = s₂.keys → s₁.keys.kv = true →
    s₁.call.phase.inCall = false → s₂.call.phase.inCall = false →
    exec (.start be tagw seed) s₁ = .next t₁ → exec (.start be tagw seed) s₂ = .next t₂ → t₁.call = t₂.call)

/-- R199, R200 under the normative preset: two messages of one length from 1 to 15 bytes have one tag, in either byte
order. -/
def Obligations.ShortTagsDependOnLengthAlone : Prop :=
  ∀ (k : KeyStore) (M₁ M₂ : List Byte) (seed : Word) (be₁ be₂ : Bool),
    M₁.length = M₂.length → M₁.length < 16 → vhash vhc64 k M₁ seed be₁ = vhash vhc64 k M₂ seed be₂

/-- R206: START, the PUSH commands of the message and FINAL run to completion and leave in `TAG` the value of the function
of R205, for every key store, seed, flags and message. -/
def Obligations.StreamedCallEqualsVhash : Prop :=
  ∀ (s : State) (be tagw : Bool) (seed : Word) (M : List Byte),
    s.err = false → s.keys.kv = true → s.call.phase.inCall = false → M.length < 2 ^ 64 →
    ∃ c, runCommands (tagCommands be tagw seed M) s = .next { s with call := c } ∧
      c.tag = vhash vhc64 s.keys M seed be ∧ c.phase = .done ∧ c.be = be ∧ c.tagw = tagw ∧ c.len.toNat = M.length

/-- R206: unit commands, RD, NOP and CLRERR between the commands of a call do not change what the call computes: when the
START, PUSH and FINAL commands of a sequence run without error, the whole sequence leaves the same key store and the
same per-call registers. -/
def Obligations.InterleavedCommandsLeaveTheCall : Prop :=
  ∀ (cmds : List Instr) (s t : State),
    (∀ i ∈ cmds, i.opcode ∈ [Opcode.start, .push, .final, .mul, .add128, .fma, .nh, .poly, .l3, .rd, .nop, .clrerr]) →
    s.err = false → s.keys.kv = true →
    runCommands (cmds.filter fun i => i.opcode ∈ [Opcode.start, .push, .final]) s = .next t → t.err = false →
    ∃ u, runCommands cmds s = .next u ∧ u.call = t.call ∧ u.keys = t.keys ∧ u.err = false

/-- R209: a message of a whole number of 8-byte groups, each group reversed, hashed in the other byte order, has the same
tag, under every configuration; the two tag beats are byte-reversed images of each other. -/
def Obligations.EndianSymmetry : Prop :=
  ∀ (cfg : Config.Cfg) (k : Sized.KeyStore cfg.nk) (M : List Byte) (seed : Word), M.length % 8 = 0 →
    let M' := (List.range M.length).map fun i => M.getD (8 * (i / 8) + (7 - i % 8)) 0#8
    vhash cfg k M' seed true = vhash cfg k M seed false ∧
    (∀ tag : Word, tagBeat true false tag = bswap64 (tagBeat false false tag) ∧
      tagBeat true true tag = (bswap32 ((tagBeat false true tag).setWidth 32)).setWidth 64)

/-- R207 under the normative preset, modulo 2^127 − 1: the accumulator after `n` ≥ 1 full chunks is the polynomial in the
NH values at the seeded key; a message of 16 to 127 bytes gives `K·K + N`; a message of 128 bytes or more gives the
polynomial in all its `t` folded chunks, its partial last chunk (if it has one) among them. -/
def Obligations.AccumulatorIsAPolynomial : Prop :=
  ∀ (k : KeyStore) (be : Bool) (M : List Byte) (seed : Word),
    let spk := seededKey vhc64 k seed
    let K := pairValue spk
    let N := fun c nw => pairValue (chunkNh vhc64 k be M c nw)
    (∀ n, 1 ≤ n → pairValue (fullChunks vhc64 k be M spk n) ≡
      (∑ c ∈ Finset.range n, N c 16 * K ^ (n - 1 - c)) + K ^ n [MOD 2 ^ 127 - 1]) ∧
    (16 ≤ M.length → M.length < 128 →
      pairValue (vhashAcc vhc64 k M seed be) ≡ K * K + N 0 (2 * ((M.length + 15) / 16)) [MOD 2 ^ 127 - 1]) ∧
    (128 ≤ M.length →
      let t := (M.length + 127) / 128
      let words := fun c => if c < M.length / 128 then 16 else 2 * ((M.length % 128 + 15) / 16)
      pairValue (vhashAcc vhc64 k M seed be) ≡
        (∑ c ∈ Finset.range t, N c (words c) * K ^ (t - 1 - c)) + K ^ t [MOD 2 ^ 127 - 1])

/-! ## Invariants (10_state.md R33, R35 to R37, R39; 60_exceptions.md R240, R261) -/

/-- Every step keeps the invariant of the machine. -/
def Obligations.EveryStepKeepsTheInvariant : Prop :=
  ∀ s t : State, Inv s → step s = .next t → Inv t

/-- The state after reset meets the invariant of the machine. -/
def Obligations.ResetMeetsTheInvariant : Prop := Inv State.reset

/-- 60_exceptions.md R261: `KV` = 0 implies `PHASE` = IDLE, after reset and after every step from a state where it holds. -/
def Obligations.UnlockedImpliesIdle : Prop :=
  UnlockedIdle State.reset ∧ ∀ s t : State, UnlockedIdle s → step s = .next t → UnlockedIdle t

/-- 10_state.md R36, 43_poly.md R173: with the seeded key masked, every step keeps the accumulator below
2^127 + 2^126 + 2^64, so that bit 127 is the one guard bit. -/
def Obligations.EveryStepKeepsTheAccumulatorBound : Prop :=
  ∀ s t : State, SeededKeyMasked s.call → AccBounded s.call → step s = .next t →
    SeededKeyMasked t.call ∧ AccBounded t.call
end

