-- ==== Sys2Proof/Laws/Words.lean ====
section
/-! SUPPORT. Values of words and of pairs: what a shift, a mask, a concatenation and a pair stand for as numbers, and the
constants of the configuration as numerals. -/

namespace Sys2Proof

@[simp] theorem nhBytes_eq : Config.nhBytes = 128 := rfl
@[simp] theorem nhWords_eq : Config.nhWords = 16 := rfl
theorem nk_eq : Config.nk = 16 := rfl
@[simp] theorem vhc64_nhBytes : Machine.vhc64.nhBytes = 128 := rfl
@[simp] theorem vhc64_nhWords : Machine.vhc64.nhWords = 16 := rfl
@[simp] theorem vhc64_nk : Machine.vhc64.nk = 16 := rfl

theorem p64_toNat : Config.p64.toNat = 2 ^ 64 - 257 := by decide

theorem append_toNat {n m : Nat} (x : BitVec n) (y : BitVec m) : (x ++ y).toNat = x.toNat * 2 ^ m + y.toNat := by
  rw [BitVec.toNat_append, Nat.shiftLeft_eq, Nat.mul_comm, ← Nat.two_pow_add_eq_or_of_lt y.isLt]

theorem word_ushiftRight_toNat (x : Word) (n : Nat) : (x >>> n).toNat = x.toNat / 2 ^ n := by
  rw [BitVec.toNat_ushiftRight, Nat.shiftRight_eq_div_pow]

theorem word_shiftLeft_toNat (x : Word) (n : Nat) : (x <<< n).toNat = x.toNat * 2 ^ n % 2 ^ 64 := by
  rw [BitVec.toNat_shiftLeft, Nat.shiftLeft_eq]

theorem and_m63_toNat (x : Word) : (x &&& Config.m63).toNat = x.toNat % 2 ^ 63 := by
  rw [BitVec.toNat_and, show Config.m63.toNat = 2 ^ 63 - 1 by decide, Nat.and_two_pow_sub_one_eq_mod]

theorem and_m62_toNat (x : Word) : (x &&& Config.m62).toNat = x.toNat % 2 ^ 62 := by
  rw [BitVec.toNat_and, show Config.m62.toNat = 2 ^ 62 - 1 by decide, Nat.and_two_pow_sub_one_eq_mod]

theorem and_mpoly_and_not_mpoly (x : Word) : (x &&& Config.mpoly) &&& ~~~Config.mpoly = 0#64 := by
  rw [BitVec.and_assoc, BitVec.and_not_self]; simp

/-- A word with no bit outside the polynomial key mask is below `2^61`. -/
theorem masked_lt {k : Word} (h : k &&& ~~~Config.mpoly = 0#64) : k.toNat < 2 ^ 61 := by
  have hk : k = k &&& Config.mpoly := by
    apply BitVec.eq_of_getLsbD_eq
    intro i hi
    have := congrArg (fun w : Word => w.getLsbD i) h
    simp only [BitVec.getLsbD_and, BitVec.getLsbD_not, hi] at this
    simp only [BitVec.getLsbD_and]
    simp at this
    cases h1 : k.getLsbD i <;> simp_all
  rw [hk, BitVec.toNat_and]
  exact lt_of_le_of_lt Nat.and_le_right (by decide)

theorem pairValue_mk (a b : Word) : pairValue (a, b) = a.toNat * 2 ^ 64 + b.toNat := rfl

theorem pairValue_lt (p : DWord) : pairValue p < 2 ^ 128 := by
  have := p.1.isLt; have := p.2.isLt; simp only [pairValue]; omega

theorem pairValue_inj {p q : DWord} (h : pairValue p = pairValue q) : p = q := by
  obtain ⟨a, b⟩ := p
  obtain ⟨c, d⟩ := q
  have := a.isLt; have := b.isLt; have := c.isLt; have := d.isLt
  simp only [pairValue] at h
  have ha : a = c := by apply BitVec.eq_of_toNat_eq; omega
  have hb : b = d := by apply BitVec.eq_of_toNat_eq; omega
  rw [ha, hb]

/-- The low 126 bits of a pair: the high word masked by `m62`, the low word as it is. -/
theorem pairValue_and_m62 (p : DWord) : pairValue (p.1 &&& Config.m62, p.2) = pairValue p % 2 ^ 126 := by
  have := p.2.isLt
  simp only [pairValue, and_m62_toNat]; omega

end Sys2Proof
end

