-- ==== Sys2Proof/Laws/Decode.lean ====
section
/-! SUPPORT. The fields of a header beat as numbers, the opcode map as an inverse pair, what a successful decoding says,
and the framing of packets. -/

namespace Sys2Proof

/-! ## Header fields -/

theorem opc_toNat (p : Packet) : p.opc.toNat = p.hdr.toNat / 2 ^ 24 % 2 ^ 8 := by
  simp [Packet.opc, BitVec.extractLsb'_toNat, Nat.shiftRight_eq_div_pow]

theorem rsv_toNat (p : Packet) : p.rsv.toNat = p.hdr.toNat / 2 ^ 8 % 2 ^ 16 := by
  simp [Packet.rsv, BitVec.extractLsb'_toNat, Nat.shiftRight_eq_div_pow]

theorem arg_toNat (p : Packet) : p.arg.toNat = p.hdr.toNat % 2 ^ 8 := by
  simp [Packet.arg, BitVec.extractLsb'_toNat, Nat.shiftRight_eq_div_pow]

theorem rsvh_toNat (p : Packet) : p.rsvh.toNat = p.hdr.toNat / 2 ^ 32 := by
  have := p.hdr.isLt
  simp [Packet.rsvh, BitVec.extractLsb'_toNat, Nat.shiftRight_eq_div_pow]; omega

theorem header_toNat (p : Packet) : p.header.toNat = p.hdr.toNat % 2 ^ 32 := by
  simp [Packet.header, BitVec.extractLsb'_toNat, Nat.shiftRight_eq_div_pow]

theorem header_eq_setWidth (p : Packet) : p.header = p.hdr.setWidth 32 := by
  apply BitVec.eq_of_toNat_eq; rw [header_toNat]; simp

theorem headerOf_toNat (o : Opcode) (a : BitVec 8) : (headerOf o a).toNat = o.code.toNat * 2 ^ 24 + a.toNat := by
  simp only [headerOf, append_toNat]
  simp; omega

theorem headerBeat_toNat (o : Opcode) (a : BitVec 8) :
    ((headerOf o a).setWidth 64).toNat = o.code.toNat * 2 ^ 24 + a.toNat := by
  have := (headerOf o a).isLt
  rw [BitVec.toNat_setWidth, Nat.mod_eq_of_lt (by omega), headerOf_toNat]

theorem opc_headerOf (o : Opcode) (a : BitVec 8) (pay : List Word) :
    Packet.opc ⟨(headerOf o a).setWidth 64, pay⟩ = o.code := by
  apply BitVec.eq_of_toNat_eq; rw [opc_toNat, headerBeat_toNat]; have := o.code.isLt; omega

theorem rsv_headerOf (o : Opcode) (a : BitVec 8) (pay : List Word) :
    Packet.rsv ⟨(headerOf o a).setWidth 64, pay⟩ = 0#16 := by
  apply BitVec.eq_of_toNat_eq; rw [rsv_toNat, headerBeat_toNat]; have := o.code.isLt; simp; omega

theorem rsvh_headerOf (o : Opcode) (a : BitVec 8) (pay : List Word) :
    Packet.rsvh ⟨(headerOf o a).setWidth 64, pay⟩ = 0#32 := by
  apply BitVec.eq_of_toNat_eq; rw [rsvh_toNat, headerBeat_toNat]; have := o.code.isLt; simp; omega

theorem arg_headerOf (o : Opcode) (a : BitVec 8) (pay : List Word) :
    Packet.arg ⟨(headerOf o a).setWidth 64, pay⟩ = a := by
  apply BitVec.eq_of_toNat_eq; rw [arg_toNat, headerBeat_toNat]; omega

/-- A header beat with clear reserved fields is the header of its opcode and its `ARG`. -/
theorem hdr_eq_headerOf {p : Packet} {o : Opcode} (ho : o.code = p.opc) (hr : p.rsv = 0#16) (hh : p.rsvh = 0#32) :
    p.hdr = (headerOf o p.arg).setWidth 64 := by
  apply BitVec.eq_of_toNat_eq
  rw [headerBeat_toNat, arg_toNat, ho, opc_toNat]
  have er := congrArg BitVec.toNat hr
  have eh := congrArg BitVec.toNat hh
  rw [rsv_toNat] at er
  rw [rsvh_toNat] at eh
  simp at er eh; omega

/-! ## The opcode map -/

theorem mem_all (o : Opcode) : o ∈ Opcode.all := by cases o <;> decide

theorem opcodeOf_code (o : Opcode) : opcodeOf o.code = some o := by cases o <;> decide

theorem code_eq_of_opcodeOf {b : BitVec 8} {o : Opcode} (h : opcodeOf b = some o) : o.code = b := by
  simpa using List.find?_some h

theorem code_ne_of_opcodeOf {b : BitVec 8} (h : opcodeOf b = none) (o : Opcode) : o.code ≠ b := by
  simpa using List.find?_eq_none.1 h o (mem_all o)

theorem code_inj {o₁ o₂ : Opcode} (h : o₁.code = o₂.code) : o₁ = o₂ := by
  have := opcodeOf_code o₁
  rw [h, opcodeOf_code] at this
  exact (Option.some.inj this).symm

/-! ## Decoding -/

/-- The decoder raises the first three error codes and no other. -/
theorem decode_error_cases {cfg : Config.Cfg} {p : Packet} {e : ErrCode} (h : decode p cfg = .error e) :
    e = .opc ∨ e = .field ∨ e = .len := by
  unfold decode at h
  repeat' split at h
  all_goals cases h
  all_goals simp

/-- A packet that decodes has passed every check, and its command is the one built from its fields. -/
theorem decode_ok_cases {cfg : Config.Cfg} {p : Packet} {i : Instr} (h : decode p cfg = .ok i) :
    ∃ o, o.code = p.opc ∧ p.rsvh = 0#32 ∧ p.rsv = 0#16 ∧ argOk o p.arg.toNat cfg = true ∧
      p.pay.length = plen o p.arg.toNat ∧ i = build o p.arg p.pay := by
  unfold decode at h
  split at h
  · cases h
  · rename_i o ho
    split at h
    · cases h
    · split at h
      · cases h
      · split at h
        · cases h
        · cases h
          refine ⟨o, code_eq_of_opcodeOf ho, ?_⟩
          simp_all

theorem build_opcode (o : Opcode) (a : BitVec 8) (pay : List Word) : (build o a pay).opcode = o := by
  cases o <;> rfl

/-- The command built from an allowed `ARG` and a payload of the required length. -/
theorem build_cases {cfg : Config.Cfg} {o : Opcode} {a : BitVec 8} {pay : List Word}
    (ha : argOk o a.toNat cfg = true) (hl : pay.length = plen o a.toNat) :
    (build o a pay).wf cfg = true ∧ (build o a pay).arg = a ∧ (build o a pay).payload = pay := by
  have hsel : ∀ a : BitVec 8, a.toNat < 6 → (rdSelOf a.toNat).code = a := by decide
  have hflag : ∀ a : BitVec 8, a.toNat < 4 → startFlags (a.getLsbD 0) (a.getLsbD 1) = a := by decide
  have hhalf : ∀ a : BitVec 8, a.toNat ≤ 1 → (halfOf a.toNat).code = a := by decide
  cases o with
  | nh => simp_all [argOk, plen, build, Instr.wf, Instr.arg, Instr.payload]
  | rd =>
    simp [argOk] at ha
    simp [plen] at hl
    subst hl
    simp [build, Instr.wf, Instr.arg, Instr.payload, hsel a ha]
  | start =>
    simp [argOk] at ha
    simp [plen] at hl
    obtain ⟨x, rfl⟩ := List.length_eq_one_iff.1 hl
    simp [build, Instr.wf, Instr.arg, Instr.payload, payWord]
    exact hflag a ha
  | ldpk | ldl3k =>
    simp [argOk] at ha
    simp [plen] at hl
    obtain ⟨x, rfl⟩ := List.length_eq_one_iff.1 hl
    simp [build, Instr.wf, Instr.arg, Instr.payload, payWord, hhalf a ha]
  | ldnhk | push =>
    simp [argOk] at ha
    simp [plen] at hl
    obtain ⟨x, rfl⟩ := List.length_eq_one_iff.1 hl
    simp [build, Instr.wf, Instr.arg, Instr.payload, payWord, ha]
  | _ =>
    have ha' : a = 0#8 := by
      apply BitVec.eq_of_toNat_eq; simpa [argOk] using ha
    subst ha'
    simp [plen] at hl
    simp only [build, Instr.wf, Instr.arg, Instr.payload, payWord]
    rcases pay with _ | ⟨x0, _ | ⟨x1, _ | ⟨x2, _ | ⟨x3, _ | ⟨x4, _ | ⟨x5, _ | ⟨x6, r⟩⟩⟩⟩⟩⟩⟩ <;> simp_all

theorem decode_ok_wf {cfg : Config.Cfg} {p : Packet} {i : Instr} (h : decode p cfg = .ok i) : i.wf cfg = true := by
  obtain ⟨o, -, -, -, ha, hl, rfl⟩ := decode_ok_cases h
  exact (build_cases ha hl).1

/-- The header word of the command a packet decodes to is the packet's own (log 6). -/
theorem decode_ok_headerWord {cfg : Config.Cfg} {p : Packet} {i : Instr} (h : decode p cfg = .ok i) :
    headerWord i = p.header := by
  obtain ⟨o, ho, hh, hr, ha, hl, rfl⟩ := decode_ok_cases h
  apply BitVec.eq_of_toNat_eq
  rw [headerWord, build_opcode, (build_cases ha hl).2.1, header_toNat, hdr_eq_headerOf ho hr hh, headerBeat_toNat,
    headerOf_toNat]
  have := o.code.isLt; have := p.arg.isLt
  omega

/-! ## Framing -/

theorem takePayload_beatsFrom (hdr : Word) (taken : List Word) (d : Word) (ws : List Word) (rest : List PortInput) :
    takePayload hdr taken (beatsFrom d ws ++ rest) = .packet ⟨hdr, taken ++ d :: ws⟩ rest := by
  induction ws generalizing d taken with
  | nil => simp [beatsFrom, takePayload]
  | cons e ws ih => simp [beatsFrom, takePayload, ih]

/-- The beats of a packet arrive as that packet. -/
theorem arrival_packetBeats (p : Packet) (rest : List PortInput) :
    arrival (packetBeats p ++ rest) = .packet p rest := by
  obtain ⟨h, pay⟩ := p
  cases pay with
  | nil => rfl
  | cons e ws => simp [packetBeats, beatsFrom, arrival, takePayload_beatsFrom]

theorem takePayload_rst (hdr : Word) (ds taken : List Word) (rest : List PortInput) :
    takePayload hdr taken (ds.map (fun d => .beat d false) ++ .rst :: rest) = .reset rest := by
  induction ds generalizing taken with
  | nil => rfl
  | cons d ds ih => simp [takePayload, ih]

theorem takePayload_waiting (hdr : Word) (ds taken : List Word) :
    takePayload hdr taken (ds.map (fun d => .beat d false)) = .waiting := by
  induction ds generalizing taken with
  | nil => rfl
  | cons d ds ih => simp [takePayload, ih]

end Sys2Proof
end

