-- ==== Sys2Proof/Laws/State.lean ====
section
/-! SUPPORT. What each update of the state leaves in each field: one lemma per field per update, true by rfl. -/

namespace Sys2Proof.Machine

variable {nk : Nat}

/-- The reset state of every instance, at this hardware's size, is this hardware's. -/
theorem zero_eq_reset : (State.zero : State) = State.reset := rfl

@[simp] theorem raiseError_keys (e : ErrCode) (h : BitVec 32) (s : Sized.State nk) : (raiseError e h s).keys = s.keys := rfl
@[simp] theorem raiseError_call (e : ErrCode) (h : BitVec 32) (s : Sized.State nk) : (raiseError e h s).call = s.call := rfl
@[simp] theorem raiseError_rh (e : ErrCode) (h : BitVec 32) (s : Sized.State nk) : (raiseError e h s).rh = s.rh := rfl
@[simp] theorem raiseError_rl (e : ErrCode) (h : BitVec 32) (s : Sized.State nk) : (raiseError e h s).rl = s.rl := rfl
@[simp] theorem raiseError_err (e : ErrCode) (h : BitVec 32) (s : Sized.State nk) : (raiseError e h s).err = true := rfl
@[simp] theorem raiseError_ecode (e : ErrCode) (h : BitVec 32) (s : Sized.State nk) : (raiseError e h s).ecode = errCodeValue e := rfl
@[simp] theorem raiseError_ecmd (e : ErrCode) (h : BitVec 32) (s : Sized.State nk) : (raiseError e h s).ecmd = h := rfl
@[simp] theorem raiseError_rsp (e : ErrCode) (h : BitVec 32) (s : Sized.State nk) : (raiseError e h s).rsp = s.rsp := rfl
@[simp] theorem raiseError_cmdIn (e : ErrCode) (h : BitVec 32) (s : Sized.State nk) : (raiseError e h s).cmdIn = s.cmdIn := rfl

@[simp] theorem clearError_keys (s : Sized.State nk) : (clearError s).keys = s.keys := rfl
@[simp] theorem clearError_call (s : Sized.State nk) : (clearError s).call = s.call := rfl
@[simp] theorem clearError_rh (s : Sized.State nk) : (clearError s).rh = s.rh := rfl
@[simp] theorem clearError_rl (s : Sized.State nk) : (clearError s).rl = s.rl := rfl
@[simp] theorem clearError_err (s : Sized.State nk) : (clearError s).err = false := rfl
@[simp] theorem clearError_ecode (s : Sized.State nk) : (clearError s).ecode = 0#4 := rfl
@[simp] theorem clearError_ecmd (s : Sized.State nk) : (clearError s).ecmd = 0#32 := rfl
@[simp] theorem clearError_rsp (s : Sized.State nk) : (clearError s).rsp = s.rsp := rfl
@[simp] theorem clearError_cmdIn (s : Sized.State nk) : (clearError s).cmdIn = s.cmdIn := rfl

@[simp] theorem respond_keys (v : Word) (s : Sized.State nk) : (respond v s).keys = s.keys := rfl
@[simp] theorem respond_call (v : Word) (s : Sized.State nk) : (respond v s).call = s.call := rfl
@[simp] theorem respond_rh (v : Word) (s : Sized.State nk) : (respond v s).rh = s.rh := rfl
@[simp] theorem respond_rl (v : Word) (s : Sized.State nk) : (respond v s).rl = s.rl := rfl
@[simp] theorem respond_err (v : Word) (s : Sized.State nk) : (respond v s).err = s.err := rfl
@[simp] theorem respond_ecode (v : Word) (s : Sized.State nk) : (respond v s).ecode = s.ecode := rfl
@[simp] theorem respond_ecmd (v : Word) (s : Sized.State nk) : (respond v s).ecmd = s.ecmd := rfl
@[simp] theorem respond_rsp (v : Word) (s : Sized.State nk) : (respond v s).rsp = s.rsp ++ [v] := rfl
@[simp] theorem respond_cmdIn (v : Word) (s : Sized.State nk) : (respond v s).cmdIn = s.cmdIn := rfl

@[simp] theorem setResult_keys (r : DWord) (s : Sized.State nk) : (setResult r s).keys = s.keys := rfl
@[simp] theorem setResult_call (r : DWord) (s : Sized.State nk) : (setResult r s).call = s.call := rfl
@[simp] theorem setResult_rh (r : DWord) (s : Sized.State nk) : (setResult r s).rh = r.1 := rfl
@[simp] theorem setResult_rl (r : DWord) (s : Sized.State nk) : (setResult r s).rl = r.2 := rfl
@[simp] theorem setResult_err (r : DWord) (s : Sized.State nk) : (setResult r s).err = s.err := rfl
@[simp] theorem setResult_ecode (r : DWord) (s : Sized.State nk) : (setResult r s).ecode = s.ecode := rfl
@[simp] theorem setResult_ecmd (r : DWord) (s : Sized.State nk) : (setResult r s).ecmd = s.ecmd := rfl
@[simp] theorem setResult_rsp (r : DWord) (s : Sized.State nk) : (setResult r s).rsp = s.rsp := rfl
@[simp] theorem setResult_cmdIn (r : DWord) (s : Sized.State nk) : (setResult r s).cmdIn = s.cmdIn := rfl

@[simp] theorem clearCall_keys (s : Sized.State nk) : (clearCall s).keys = s.keys := rfl
@[simp] theorem clearCall_call (s : Sized.State nk) : (clearCall s).call = Call.zero := rfl
@[simp] theorem clearCall_rh (s : Sized.State nk) : (clearCall s).rh = s.rh := rfl
@[simp] theorem clearCall_rl (s : Sized.State nk) : (clearCall s).rl = s.rl := rfl
@[simp] theorem clearCall_err (s : Sized.State nk) : (clearCall s).err = s.err := rfl
@[simp] theorem clearCall_ecode (s : Sized.State nk) : (clearCall s).ecode = s.ecode := rfl
@[simp] theorem clearCall_ecmd (s : Sized.State nk) : (clearCall s).ecmd = s.ecmd := rfl
@[simp] theorem clearCall_rsp (s : Sized.State nk) : (clearCall s).rsp = s.rsp := rfl
@[simp] theorem clearCall_cmdIn (s : Sized.State nk) : (clearCall s).cmdIn = s.cmdIn := rfl

@[simp] theorem present_keys (xs : List PortInput) (s : Sized.State nk) : (present xs s).keys = s.keys := rfl
@[simp] theorem present_call (xs : List PortInput) (s : Sized.State nk) : (present xs s).call = s.call := rfl
@[simp] theorem present_rh (xs : List PortInput) (s : Sized.State nk) : (present xs s).rh = s.rh := rfl
@[simp] theorem present_rl (xs : List PortInput) (s : Sized.State nk) : (present xs s).rl = s.rl := rfl
@[simp] theorem present_err (xs : List PortInput) (s : Sized.State nk) : (present xs s).err = s.err := rfl
@[simp] theorem present_ecode (xs : List PortInput) (s : Sized.State nk) : (present xs s).ecode = s.ecode := rfl
@[simp] theorem present_ecmd (xs : List PortInput) (s : Sized.State nk) : (present xs s).ecmd = s.ecmd := rfl
@[simp] theorem present_rsp (xs : List PortInput) (s : Sized.State nk) : (present xs s).rsp = s.rsp := rfl
@[simp] theorem present_cmdIn (xs : List PortInput) (s : Sized.State nk) : (present xs s).cmdIn = xs ++ s.cmdIn := rfl

@[simp] theorem setNhk_pkh (k : Sized.KeyStore nk) (i : Nat) (w : Word) : (k.setNhk i w).pkh = k.pkh := rfl
@[simp] theorem setNhk_pkl (k : Sized.KeyStore nk) (i : Nat) (w : Word) : (k.setNhk i w).pkl = k.pkl := rfl
@[simp] theorem setNhk_l3kh (k : Sized.KeyStore nk) (i : Nat) (w : Word) : (k.setNhk i w).l3kh = k.l3kh := rfl
@[simp] theorem setNhk_l3kl (k : Sized.KeyStore nk) (i : Nat) (w : Word) : (k.setNhk i w).l3kl = k.l3kl := rfl
@[simp] theorem setNhk_kv (k : Sized.KeyStore nk) (i : Nat) (w : Word) : (k.setNhk i w).kv = k.kv := rfl

@[simp] theorem countBytes_spkh (nb : Nat) (c : Call) : (countBytes nb c).spkh = c.spkh := rfl
@[simp] theorem countBytes_spkl (nb : Nat) (c : Call) : (countBytes nb c).spkl = c.spkl := rfl
@[simp] theorem countBytes_ah (nb : Nat) (c : Call) : (countBytes nb c).ah = c.ah := rfl
@[simp] theorem countBytes_al (nb : Nat) (c : Call) : (countBytes nb c).al = c.al := rfl
@[simp] theorem countBytes_nhh (nb : Nat) (c : Call) : (countBytes nb c).nhh = c.nhh := rfl
@[simp] theorem countBytes_nhl (nb : Nat) (c : Call) : (countBytes nb c).nhl = c.nhl := rfl
@[simp] theorem countBytes_w0 (nb : Nat) (c : Call) : (countBytes nb c).w0 = c.w0 := rfl
@[simp] theorem countBytes_wheld (nb : Nat) (c : Call) : (countBytes nb c).wheld = c.wheld := rfl
@[simp] theorem countBytes_wcnt (nb : Nat) (c : Call) : (countBytes nb c).wcnt = c.wcnt := rfl
@[simp] theorem countBytes_fb (nb : Nat) (c : Call) : (countBytes nb c).fb = c.fb := rfl
@[simp] theorem countBytes_len (nb : Nat) (c : Call) : (countBytes nb c).len = c.len + BitVec.ofNat 64 nb := rfl
@[simp] theorem countBytes_be (nb : Nat) (c : Call) : (countBytes nb c).be = c.be := rfl
@[simp] theorem countBytes_tagw (nb : Nat) (c : Call) : (countBytes nb c).tagw = c.tagw := rfl
@[simp] theorem countBytes_tag (nb : Nat) (c : Call) : (countBytes nb c).tag = c.tag := rfl
@[simp] theorem countBytes_phase (nb : Nat) (c : Call) : (countBytes nb c).phase = c.phase := rfl

@[simp] theorem setPhase_spkh (p : Phase) (c : Call) : (setPhase p c).spkh = c.spkh := rfl
@[simp] theorem setPhase_spkl (p : Phase) (c : Call) : (setPhase p c).spkl = c.spkl := rfl
@[simp] theorem setPhase_ah (p : Phase) (c : Call) : (setPhase p c).ah = c.ah := rfl
@[simp] theorem setPhase_al (p : Phase) (c : Call) : (setPhase p c).al = c.al := rfl
@[simp] theorem setPhase_nhh (p : Phase) (c : Call) : (setPhase p c).nhh = c.nhh := rfl
@[simp] theorem setPhase_nhl (p : Phase) (c : Call) : (setPhase p c).nhl = c.nhl := rfl
@[simp] theorem setPhase_w0 (p : Phase) (c : Call) : (setPhase p c).w0 = c.w0 := rfl
@[simp] theorem setPhase_wheld (p : Phase) (c : Call) : (setPhase p c).wheld = c.wheld := rfl
@[simp] theorem setPhase_wcnt (p : Phase) (c : Call) : (setPhase p c).wcnt = c.wcnt := rfl
@[simp] theorem setPhase_fb (p : Phase) (c : Call) : (setPhase p c).fb = c.fb := rfl
@[simp] theorem setPhase_len (p : Phase) (c : Call) : (setPhase p c).len = c.len := rfl
@[simp] theorem setPhase_be (p : Phase) (c : Call) : (setPhase p c).be = c.be := rfl
@[simp] theorem setPhase_tagw (p : Phase) (c : Call) : (setPhase p c).tagw = c.tagw := rfl
@[simp] theorem setPhase_tag (p : Phase) (c : Call) : (setPhase p c).tag = c.tag := rfl
@[simp] theorem setPhase_phase (p : Phase) (c : Call) : (setPhase p c).phase = p := rfl

@[simp] theorem clearChunk_spkh (c : Call) : (clearChunk c).spkh = c.spkh := rfl
@[simp] theorem clearChunk_spkl (c : Call) : (clearChunk c).spkl = c.spkl := rfl
@[simp] theorem clearChunk_ah (c : Call) : (clearChunk c).ah = c.ah := rfl
@[simp] theorem clearChunk_al (c : Call) : (clearChunk c).al = c.al := rfl
@[simp] theorem clearChunk_nhh (c : Call) : (clearChunk c).nhh = 0#64 := rfl
@[simp] theorem clearChunk_nhl (c : Call) : (clearChunk c).nhl = 0#64 := rfl
@[simp] theorem clearChunk_w0 (c : Call) : (clearChunk c).w0 = 0#64 := rfl
@[simp] theorem clearChunk_wheld (c : Call) : (clearChunk c).wheld = false := rfl
@[simp] theorem clearChunk_wcnt (c : Call) : (clearChunk c).wcnt = 0#8 := rfl
@[simp] theorem clearChunk_fb (c : Call) : (clearChunk c).fb = c.fb := rfl
@[simp] theorem clearChunk_len (c : Call) : (clearChunk c).len = c.len := rfl
@[simp] theorem clearChunk_be (c : Call) : (clearChunk c).be = c.be := rfl
@[simp] theorem clearChunk_tagw (c : Call) : (clearChunk c).tagw = c.tagw := rfl
@[simp] theorem clearChunk_tag (c : Call) : (clearChunk c).tag = c.tag := rfl
@[simp] theorem clearChunk_phase (c : Call) : (clearChunk c).phase = c.phase := rfl

@[simp] theorem foldChunk_spkh (cfg : Config.Cfg) (kind : FoldKind) (c : Call) :
    (foldChunk cfg kind c).spkh = c.spkh := rfl
@[simp] theorem foldChunk_spkl (cfg : Config.Cfg) (kind : FoldKind) (c : Call) :
    (foldChunk cfg kind c).spkl = c.spkl := rfl
@[simp] theorem foldChunk_ah (cfg : Config.Cfg) (kind : FoldKind) (c : Call) :
    (foldChunk cfg kind c).ah = (foldedAcc cfg kind c).1 := rfl
@[simp] theorem foldChunk_al (cfg : Config.Cfg) (kind : FoldKind) (c : Call) :
    (foldChunk cfg kind c).al = (foldedAcc cfg kind c).2 := rfl
@[simp] theorem foldChunk_nhh (cfg : Config.Cfg) (kind : FoldKind) (c : Call) :
    (foldChunk cfg kind c).nhh = 0#64 := rfl
@[simp] theorem foldChunk_nhl (cfg : Config.Cfg) (kind : FoldKind) (c : Call) :
    (foldChunk cfg kind c).nhl = 0#64 := rfl
@[simp] theorem foldChunk_w0 (cfg : Config.Cfg) (kind : FoldKind) (c : Call) :
    (foldChunk cfg kind c).w0 = 0#64 := rfl
@[simp] theorem foldChunk_wheld (cfg : Config.Cfg) (kind : FoldKind) (c : Call) :
    (foldChunk cfg kind c).wheld = false := rfl
@[simp] theorem foldChunk_wcnt (cfg : Config.Cfg) (kind : FoldKind) (c : Call) :
    (foldChunk cfg kind c).wcnt = 0#8 := rfl
@[simp] theorem foldChunk_fb (cfg : Config.Cfg) (kind : FoldKind) (c : Call) :
    (foldChunk cfg kind c).fb = true := rfl
@[simp] theorem foldChunk_len (cfg : Config.Cfg) (kind : FoldKind) (c : Call) :
    (foldChunk cfg kind c).len = c.len := rfl
@[simp] theorem foldChunk_be (cfg : Config.Cfg) (kind : FoldKind) (c : Call) :
    (foldChunk cfg kind c).be = c.be := rfl
@[simp] theorem foldChunk_tagw (cfg : Config.Cfg) (kind : FoldKind) (c : Call) :
    (foldChunk cfg kind c).tagw = c.tagw := rfl
@[simp] theorem foldChunk_tag (cfg : Config.Cfg) (kind : FoldKind) (c : Call) :
    (foldChunk cfg kind c).tag = c.tag := rfl
@[simp] theorem foldChunk_phase (cfg : Config.Cfg) (kind : FoldKind) (c : Call) :
    (foldChunk cfg kind c).phase = c.phase := rfl

@[simp] theorem startCall_spkh (cfg : Config.Cfg) (k : Sized.KeyStore nk) (be tagw : Bool) (seed : Word) :
    (startCall cfg k be tagw seed).spkh = (seededKey cfg k seed).1 := rfl
@[simp] theorem startCall_spkl (cfg : Config.Cfg) (k : Sized.KeyStore nk) (be tagw : Bool) (seed : Word) :
    (startCall cfg k be tagw seed).spkl = (seededKey cfg k seed).2 := rfl
@[simp] theorem startCall_ah (cfg : Config.Cfg) (k : Sized.KeyStore nk) (be tagw : Bool) (seed : Word) :
    (startCall cfg k be tagw seed).ah = (seededKey cfg k seed).1 := rfl
@[simp] theorem startCall_al (cfg : Config.Cfg) (k : Sized.KeyStore nk) (be tagw : Bool) (seed : Word) :
    (startCall cfg k be tagw seed).al = (seededKey cfg k seed).2 := rfl
@[simp] theorem startCall_nhh (cfg : Config.Cfg) (k : Sized.KeyStore nk) (be tagw : Bool) (seed : Word) :
    (startCall cfg k be tagw seed).nhh = 0#64 := rfl
@[simp] theorem startCall_nhl (cfg : Config.Cfg) (k : Sized.KeyStore nk) (be tagw : Bool) (seed : Word) :
    (startCall cfg k be tagw seed).nhl = 0#64 := rfl
@[simp] theorem startCall_w0 (cfg : Config.Cfg) (k : Sized.KeyStore nk) (be tagw : Bool) (seed : Word) :
    (startCall cfg k be tagw seed).w0 = 0#64 := rfl
@[simp] theorem startCall_wheld (cfg : Config.Cfg) (k : Sized.KeyStore nk) (be tagw : Bool) (seed : Word) :
    (startCall cfg k be tagw seed).wheld = false := rfl
@[simp] theorem startCall_wcnt (cfg : Config.Cfg) (k : Sized.KeyStore nk) (be tagw : Bool) (seed : Word) :
    (startCall cfg k be tagw seed).wcnt = 0#8 := rfl
@[simp] theorem startCall_fb (cfg : Config.Cfg) (k : Sized.KeyStore nk) (be tagw : Bool) (seed : Word) :
    (startCall cfg k be tagw seed).fb = false := rfl
@[simp] theorem startCall_len (cfg : Config.Cfg) (k : Sized.KeyStore nk) (be tagw : Bool) (seed : Word) :
    (startCall cfg k be tagw seed).len = 0#64 := rfl
@[simp] theorem startCall_be (cfg : Config.Cfg) (k : Sized.KeyStore nk) (be tagw : Bool) (seed : Word) :
    (startCall cfg k be tagw seed).be = be := rfl
@[simp] theorem startCall_tagw (cfg : Config.Cfg) (k : Sized.KeyStore nk) (be tagw : Bool) (seed : Word) :
    (startCall cfg k be tagw seed).tagw = tagw := rfl
@[simp] theorem startCall_tag (cfg : Config.Cfg) (k : Sized.KeyStore nk) (be tagw : Bool) (seed : Word) :
    (startCall cfg k be tagw seed).tag = 0#64 := rfl
@[simp] theorem startCall_phase (cfg : Config.Cfg) (k : Sized.KeyStore nk) (be tagw : Bool) (seed : Word) :
    (startCall cfg k be tagw seed).phase = .msg := rfl

@[simp] theorem callZero_spkh : Call.zero.spkh = 0#64 := rfl
@[simp] theorem callZero_spkl : Call.zero.spkl = 0#64 := rfl
@[simp] theorem callZero_ah : Call.zero.ah = 0#64 := rfl
@[simp] theorem callZero_al : Call.zero.al = 0#64 := rfl
@[simp] theorem callZero_nhh : Call.zero.nhh = 0#64 := rfl
@[simp] theorem callZero_nhl : Call.zero.nhl = 0#64 := rfl
@[simp] theorem callZero_w0 : Call.zero.w0 = 0#64 := rfl
@[simp] theorem callZero_wheld : Call.zero.wheld = false := rfl
@[simp] theorem callZero_wcnt : Call.zero.wcnt = 0#8 := rfl
@[simp] theorem callZero_fb : Call.zero.fb = false := rfl
@[simp] theorem callZero_len : Call.zero.len = 0#64 := rfl
@[simp] theorem callZero_be : Call.zero.be = false := rfl
@[simp] theorem callZero_tagw : Call.zero.tagw = false := rfl
@[simp] theorem callZero_tag : Call.zero.tag = 0#64 := rfl
@[simp] theorem callZero_phase : Call.zero.phase = .idle := rfl

end Sys2Proof.Machine
end

