-- ==== Sys2Proof/Laws/Units.lean ====
section
/-! SUPPORT. The values of the unit functions: one lemma for each function of the kernel, NH and POLY, and one for each step
of L3. -/

namespace Sys2Proof.Machine

/-! ## Kernel -/

theorem mul64_fst_toNat (a b : Word) : (mul64 a b).1.toNat = a.toNat * b.toNat / 2 ^ 64 := by
  simp only [mul64, BitVec.toNat_ofNat]
  exact Nat.mod_eq_of_lt (Nat.div_lt_of_lt_mul (Nat.mul_lt_mul'' a.isLt b.isLt))

theorem mul64_snd_toNat (a b : Word) : (mul64 a b).2.toNat = a.toNat * b.toNat % 2 ^ 64 := by
  simp only [mul64, BitVec.toNat_ofNat]

/-- The product pair is the exact product. -/
theorem mul64_value (a b : Word) : pairValue (mul64 a b) = a.toNat * b.toNat := by
  rw [pairValue, mul64_fst_toNat, mul64_snd_toNat]; omega

/-- The sum pair is the sum modulo 2^128. -/
theorem add128_value (a b c d : Word) :
    pairValue (add128 a b c d) = (a.toNat * 2 ^ 64 + b.toNat + (c.toNat * 2 ^ 64 + d.toNat)) % 2 ^ 128 := by
  have := a.isLt; have := b.isLt; have := c.isLt; have := d.isLt
  simp only [pairValue, add128, BitVec.lt_def, BitVec.toNat_add]
  split <;> simp <;> omega

/-- The multiply-accumulate pair is the accumulated sum modulo 2^128. -/
theorem mulc_value (a b c d : Word) :
    pairValue (mulc a b c d) = (a.toNat * 2 ^ 64 + b.toNat + c.toNat * d.toNat) % 2 ^ 128 := by
  have h := mul64_value c d
  simp only [pairValue] at h
  simp only [mulc]
  rw [add128_value, h]

/-! ## NH -/

/-- The running total after `n` pairs. -/
theorem nhPairs_value (m k : Nat → Word) (n : Nat) :
    pairValue (nhPairs m k n) =
      (∑ i ∈ Finset.range n, ((m (2 * i)).toNat + (k (2 * i)).toNat) % 2 ^ 64 *
        (((m (2 * i + 1)).toNat + (k (2 * i + 1)).toNat) % 2 ^ 64)) % 2 ^ 128 := by
  induction n with
  | zero => simp [nhPairs, pairValue]
  | succ n ih =>
    rw [Finset.sum_range_succ, nhPairs, mulc_value]
    simp only [pairValue] at ih
    rw [ih]; simp only [BitVec.toNat_add]
    rw [Nat.mod_add_mod]

/-! ## POLY -/

set_option maxRecDepth 20000 in
/-- `poly_step` on key words below `2^61` and a message pair below `2^126` (43_poly.md R172, R173). -/
theorem polyStep_value (ah al kh kl mh ml : Word) (hkh : kh.toNat < 2 ^ 61) (hkl : kl.toNat < 2 ^ 61)
    (hm : mh.toNat ≤ 2 ^ 62 - 1) :
    pairValue (polyStep ah al kh kl mh ml) ≡
      (ah.toNat * 2 ^ 64 + al.toNat) * (kh.toNat * 2 ^ 64 + kl.toNat) + (mh.toNat * 2 ^ 64 + ml.toNat)
      [MOD 2 ^ 127 - 1] ∧
    pairValue (polyStep ah al kh kl mh ml) < 2 ^ 127 + 2 ^ 126 + 2 ^ 64 := by
  have h1 := ah.isLt; have h2 := al.isLt; have h6 := ml.isLt
  unfold polyStep
  simp only
  have e3 := mul64_value al kh
  have e2 := mul64_value ah kl
  have e1 := mul64_value ah (2#64 * kh)
  have e0 := mul64_value al kl
  have hk2 : (2#64 * kh).toNat = 2 * kh.toNat := by rw [BitVec.toNat_mul]; simp; omega
  rw [hk2] at e1
  have b3 : al.toNat * kh.toNat < 2 ^ 64 * 2 ^ 61 := Nat.mul_lt_mul'' h2 hkh
  have b2 : ah.toNat * kl.toNat < 2 ^ 64 * 2 ^ 61 := Nat.mul_lt_mul'' h1 hkl
  have b1 : ah.toNat * kh.toNat < 2 ^ 64 * 2 ^ 61 := Nat.mul_lt_mul'' h1 hkh
  have b0 : al.toNat * kl.toNat < 2 ^ 64 * 2 ^ 61 := Nat.mul_lt_mul'' h2 hkl
  have e1' : ah.toNat * (2 * kh.toNat) = 2 * (ah.toNat * kh.toNat) := by ring
  rw [e1'] at e1
  have rhs : (ah.toNat * 2 ^ 64 + al.toNat) * (kh.toNat * 2 ^ 64 + kl.toNat) + (mh.toNat * 2 ^ 64 + ml.toNat) =
      (ah.toNat * kh.toNat) * 2 ^ 128 + (ah.toNat * kl.toNat + al.toNat * kh.toNat) * 2 ^ 64 + al.toNat * kl.toNat +
        (mh.toNat * 2 ^ 64 + ml.toNat) := by ring
  rw [rhs]
  clear rhs e1' hk2
  generalize al.toNat * kh.toNat = Q at *
  generalize ah.toNat * kl.toNat = Z at *
  generalize ah.toNat * kh.toNat = Y at *
  generalize al.toNat * kl.toNat = X at *
  generalize mul64 al kh = t3 at *
  generalize mul64 ah kl = t2 at *
  generalize mul64 ah (2#64 * kh) = t1 at *
  generalize mul64 al kl = a0 at *
  have f1 := add128_value a0.1 a0.2 t1.1 t1.2
  have f2 := add128_value t2.1 t2.2 t3.1 t3.2
  rw [← pairValue, ← pairValue, e0, e1, Nat.mod_eq_of_lt (by omega)] at f1
  rw [← pairValue, ← pairValue, e2, e3, Nat.mod_eq_of_lt (by omega)] at f2
  generalize add128 a0.1 a0.2 t1.1 t1.2 = a1 at *
  generalize add128 t2.1 t2.2 t3.1 t3.2 = t at *
  have f3 := add128_value t.1 a1.1 0#64 t.2
  generalize add128 t.1 a1.1 0#64 t.2 = u at *
  clear e0 e1 e2 e3
  obtain ⟨a1h, a1l⟩ := a1
  obtain ⟨th, tl⟩ := t
  obtain ⟨u1, u2⟩ := u
  simp only [pairValue] at f1 f2 f3
  simp only at *
  have l9 := a1h.isLt; have l10 := a1l.isLt; have l11 := th.isLt; have l12 := tl.isLt
  have l13 := u1.isLt; have l14 := u2.isLt
  have z : (0#64).toNat = 0 := rfl
  have c1 : th.toNat < 2 ^ 62 := by omega
  rw [z, Nat.mod_eq_of_lt (by omega)] at f3
  have hs := word_ushiftRight_toNat u2 63
  have c2 : u1.toNat < 2 ^ 62 + 2 := by omega
  have hd : (2#64 * u1 + u2 >>> 63).toNat = 2 * u1.toNat + u2.toNat / 2 ^ 63 := by
    rw [BitVec.toNat_add, BitVec.toNat_mul, hs]
    have c3 : u2.toNat / 2 ^ 63 < 2 := by omega
    generalize u2.toNat / 2 ^ 63 = g at *
    clear f1 f2 f3
    simp
    omega
  have ha := and_m63_toNat u2
  generalize 2#64 * u1 + u2 >>> 63 = t2h at hd ⊢
  generalize u2 &&& Config.m63 = a63 at ha ⊢
  have f4 := add128_value a63 a1l mh ml
  rw [ha, Nat.mod_eq_of_lt (by omega)] at f4
  generalize add128 a63 a1l mh ml = c at f4 ⊢
  have f5 := add128_value c.1 c.2 0#64 t2h
  rw [← pairValue, f4, hd, z, Nat.mod_eq_of_lt (by omega)] at f5
  rw [f5]
  refine ⟨?_, by omega⟩
  have key : Y * 2 ^ 128 + (Z + Q) * 2 ^ 64 + X + (mh.toNat * 2 ^ 64 + ml.toNat) =
      (u2.toNat % 2 ^ 63 * 2 ^ 64 + a1l.toNat + (mh.toNat * 2 ^ 64 + ml.toNat) +
        (0 * 2 ^ 64 + (2 * u1.toNat + u2.toNat / 2 ^ 63))) +
      (2 ^ 127 - 1) * (2 * u1.toNat + u2.toNat / 2 ^ 63 + 2 * Y) := by
    have hu := Nat.div_add_mod u2.toNat (2 ^ 63)
    generalize u2.toNat / 2 ^ 63 = g at *
    generalize u2.toNat % 2 ^ 63 = m at *
    norm_num
    norm_num at f1 f2 f3 hu
    linarith
  rw [key]
  exact Nat.ModEq.symm (by simp [Nat.ModEq])

/-! ## L3 -/

set_option maxRecDepth 4000 in
/-- Step 1: the sum, with the bit length on the high word, reduced modulo 2^127 − 1. -/
theorem l3Reduce127_value (p1 p2 len : Word) (hl : len.toNat < 2 ^ 63) :
    pairValue (l3Reduce127 p1 p2 len) =
      (p1.toNat % 2 ^ 63 * 2 ^ 64 + p2.toNat + len.toNat * 2 ^ 64 + p1.toNat / 2 ^ 63) % (2 ^ 127 - 1) := by
  unfold l3Reduce127
  simp only
  have l1 := p1.isLt; have l2 := p2.isLt
  have h1 := and_m63_toNat p1
  have h2 := word_ushiftRight_toNat p1 63
  have hm63 : Config.m63.toNat = 2 ^ 63 - 1 := by decide
  have hm64 : Config.m64.toNat = 2 ^ 64 - 1 := by decide
  generalize p1 &&& Config.m63 = p at h1 ⊢
  generalize p1 >>> 63 = t at h2 ⊢
  have e1 := add128_value p p2 len t
  rw [h1, h2, Nat.mod_eq_of_lt (by omega)] at e1
  generalize add128 p p2 len t = u at e1 ⊢
  have hS : p1.toNat % 2 ^ 63 * 2 ^ 64 + p2.toNat + len.toNat * 2 ^ 64 + p1.toNat / 2 ^ 63 = pairValue u := by
    rw [e1]; ring
  have hb : pairValue u ≤ 2 ^ 128 - 2 ^ 64 := by rw [e1]; omega
  rw [hS]; clear hS e1 h1 h2
  have ht : ((if u.1 > Config.m63 then 1#64 else 0#64) +
      (if u.1 = Config.m63 ∧ u.2 = Config.m64 then 1#64 else 0#64) : Word).toNat =
      if pairValue u ≥ 2 ^ 127 - 1 then 1 else 0 := by
    obtain ⟨x, y⟩ := u
    simp only [pairValue, gt_iff_lt, BitVec.lt_def, ← BitVec.toNat_inj, hm63, hm64]
    have := x.isLt; have := y.isLt
    clear * - this
    split_ifs <;> simp <;> omega
  generalize ((if u.1 > Config.m63 then 1#64 else 0#64) +
    (if u.1 = Config.m63 ∧ u.2 = Config.m64 then 1#64 else 0#64) : Word) = c at ht ⊢
  have e2 := add128_value u.1 u.2 0#64 c
  rw [← pairValue, ht, show (0#64).toNat = 0 from rfl] at e2
  generalize add128 u.1 u.2 0#64 c = v at e2 ⊢
  have h3 := and_m63_toNat v.1
  have hv : pairValue (v.1 &&& Config.m63, v.2) = pairValue v % 2 ^ 127 := by
    have := v.2.isLt
    simp only [pairValue, h3]; clear * - this; omega
  rw [hv, e2]
  clear * - hb
  split <;> omega

/-- Step 2: the quotient and the remainder by 2^64 − 2^32. -/
theorem l3DivMod_value (p1 p2 : Word) (h : p1.toNat < 2 ^ 63) :
    (l3DivMod p1 p2).1.toNat = (p1.toNat * 2 ^ 64 + p2.toNat) / (2 ^ 64 - 2 ^ 32) ∧
    (l3DivMod p1 p2).2.toNat = (p1.toNat * 2 ^ 64 + p2.toNat) % (2 ^ 64 - 2 ^ 32) := by
  have l2 := p2.isLt
  unfold l3DivMod
  simp only
  have ha : ∀ x : Word, (x &&& 0xFFFFFFFF#64).toNat = x.toNat % 2 ^ 32 := by
    intro x
    rw [BitVec.toNat_and, show (0xFFFFFFFF#64).toNat = 2 ^ 32 - 1 by decide, Nat.and_two_pow_sub_one_eq_mod]
  have hf : (0xFFFFFFFE#64).toNat = 2 ^ 32 - 2 := by decide
  have e1 : (p1 + p2 >>> 32).toNat = p1.toNat + p2.toNat / 2 ^ 32 := by
    rw [BitVec.toNat_add, word_ushiftRight_toNat]; omega
  generalize p1 + p2 >>> 32 = t0 at e1 ⊢
  have e2 : (t0 + t0 >>> 32).toNat = t0.toNat + t0.toNat / 2 ^ 32 := by
    rw [BitVec.toNat_add, word_ushiftRight_toNat]; omega
  generalize t0 + t0 >>> 32 = t1 at e2 ⊢
  have e3 : (t1 + (if t1 &&& 0xFFFFFFFF#64 > 0xFFFFFFFE#64 then 1#64 else 0#64)).toNat =
      t1.toNat + (if t1.toNat % 2 ^ 32 = 2 ^ 32 - 1 then 1 else 0) := by
    simp only [gt_iff_lt, BitVec.lt_def, ha, hf]
    rw [BitVec.toNat_add]
    have : t1.toNat < 2 ^ 63 + 2 ^ 33 := by omega
    clear * - this
    split_ifs <;> simp <;> omega
  generalize t1 + (if t1 &&& 0xFFFFFFFF#64 > 0xFFFFFFFE#64 then 1#64 else 0#64) = t2 at e3 ⊢
  have e4 : (p1 + t2 >>> 32).toNat = p1.toNat + t2.toNat / 2 ^ 32 := by
    have : t2.toNat < 2 ^ 63 + 2 ^ 34 := by split at e3 <;> omega
    rw [BitVec.toNat_add, word_ushiftRight_toNat]; omega
  generalize p1 + t2 >>> 32 = q at e4 ⊢
  have e5 : (p2 + q <<< 32).toNat = (p2.toNat + q.toNat * 2 ^ 32) % 2 ^ 64 := by
    rw [BitVec.toNat_add, word_shiftLeft_toNat, Nat.add_mod_mod]
  have e6 : ∃ r, r < 2 ^ 64 - 2 ^ 32 ∧ p1.toNat * 2 ^ 64 + p2.toNat = r + (2 ^ 64 - 2 ^ 32) * q.toNat := by
    have q1 := Nat.div_add_mod p2.toNat (2 ^ 32)
    have q2 := Nat.div_add_mod t0.toNat (2 ^ 32)
    have q3 := Nat.mod_lt p2.toNat (show 2 ^ 32 > 0 by norm_num)
    have q4 := Nat.mod_lt t0.toNat (show 2 ^ 32 > 0 by norm_num)
    have g1 : t0.toNat / 2 ^ 32 < 2 ^ 31 + 1 := by omega
    generalize p2.toNat / 2 ^ 32 = b at *
    generalize p2.toNat % 2 ^ 32 = c at *
    generalize t0.toNat / 2 ^ 32 = h' at *
    generalize t0.toNat % 2 ^ 32 = l at *
    have g2 : t2.toNat / 2 ^ 32 = h' + (if h' + l ≥ 2 ^ 32 - 1 then 1 else 0) := by
      clear * - e3 e2 q2 q4 g1
      split_ifs at e3 ⊢ <;> omega
    rw [g2] at e4
    refine ⟨(h' + l - (if h' + l ≥ 2 ^ 32 - 1 then 2 ^ 32 - 1 else 0)) * 2 ^ 32 + c, ?_, ?_⟩
    · clear * - q3 q4 g1
      split_ifs <;> omega
    · rw [e4]; clear * - q1 q2 e1
      have : p1.toNat + b = h' * 2 ^ 32 + l := by omega
      split_ifs <;> omega
  obtain ⟨r, hr, hx⟩ := e6
  have e7 : (p2.toNat + q.toNat * 2 ^ 32) % 2 ^ 64 = r := by clear * - hr hx; omega
  rw [e5, e7, hx]
  constructor
  · rw [Nat.add_mul_div_left _ _ (by norm_num), Nat.div_eq_of_lt hr, Nat.zero_add]
  · rw [Nat.add_mul_mod_self_left, Nat.mod_eq_of_lt hr]

/-- Step 3: the key added modulo `p64`; the corrected sum need not be below `p64`. -/
theorem l3AddKey_value (p k : Word) (h : p.toNat < 2 ^ 64 - 2 ^ 32) :
    (l3AddKey p k).toNat % (2 ^ 64 - 257) = (p.toNat + k.toNat) % (2 ^ 64 - 257) := by
  have hk := k.isLt
  unfold l3AddKey
  simp only [BitVec.lt_def, BitVec.toNat_add]
  split <;> rename_i hc
  · rw [BitVec.toNat_add, BitVec.toNat_add]; simp only [BitVec.toNat_ofNat]; omega
  · rw [BitVec.toNat_add]; omega

set_option maxRecDepth 20000 in
/-- Step 4: the product modulo `p64`, for every two words. -/
theorem l3MulMod_value (a b : Word) : (l3MulMod a b).toNat = a.toNat * b.toNat % (2 ^ 64 - 257) := by
  unfold l3MulMod
  simp only
  have hr := mul64_value a b
  generalize mul64 a b = r at hr ⊢
  obtain ⟨rh, rl⟩ := r
  simp only [pairValue] at hr
  simp only
  have hl := rl.isLt; have hh := rh.isLt
  have hp : (Config.p64 - 1#64).toNat = 2 ^ 64 - 258 := by decide
  have z : (0#64).toNat = 0 := rfl
  have e1 := add128_value (rh >>> 56) rl 0#64 rh
  have h56 := word_ushiftRight_toNat rh 56
  have h8 := word_shiftLeft_toNat rh 8
  rw [h56, z, Nat.mod_eq_of_lt (by omega)] at e1
  generalize add128 (rh >>> 56) rl 0#64 rh = s at e1 ⊢
  have e2 := add128_value s.1 s.2 0#64 (rh <<< 8)
  rw [← pairValue, e1, h8, z, Nat.mod_eq_of_lt (by omega)] at e2
  generalize add128 s.1 s.2 0#64 (rh <<< 8) = u at e2 ⊢
  have e3 : pairValue u = rl.toNat + 257 * rh.toNat := by
    rw [e2]; have hh' := hh; clear * - hh'
    have q1 := Nat.div_add_mod rh.toNat (2 ^ 56)
    have q2 : rh.toNat * 2 ^ 8 % 2 ^ 64 = (rh.toNat % 2 ^ 56) * 2 ^ 8 := by
      rw [show (2 : Nat) ^ 64 = 2 ^ 56 * 2 ^ 8 by norm_num, Nat.mul_mod_mul_right]
    rw [q2]
    generalize rh.toNat / 2 ^ 56 = g at *
    generalize rh.toNat % 2 ^ 56 = m at *
    norm_num at q1 ⊢; linarith
  clear e2 e1
  obtain ⟨uh, ul⟩ := u
  simp only [pairValue] at e3
  simp only
  have hul := ul.isLt
  have c1 : uh.toNat < 258 := by omega
  have ht : (uh + uh <<< 8).toNat = 257 * uh.toNat := by
    rw [BitVec.toNat_add, BitVec.toNat_shiftLeft, Nat.shiftLeft_eq]; omega
  have cong : a.toNat * b.toNat ≡ ul.toNat + 257 * uh.toNat [MOD 2 ^ 64 - 257] := by
    rw [← hr]
    have h1 : rh.toNat * 2 ^ 64 + rl.toNat = (rl.toNat + 257 * rh.toNat) + (2 ^ 64 - 257) * rh.toNat := by
      norm_num; ring
    rw [h1, ← e3]
    have h2 : uh.toNat * 2 ^ 64 + ul.toNat + (2 ^ 64 - 257) * rh.toNat =
        (ul.toNat + 257 * uh.toNat) + (2 ^ 64 - 257) * (uh.toNat + rh.toNat) := by norm_num; ring
    rw [h2]
    simp [Nat.ModEq]
  generalize uh + uh <<< 8 = t at ht ⊢
  have key : ∃ v : Nat, v < 2 ^ 64 ∧ v ≡ a.toNat * b.toNat [MOD 2 ^ 64 - 257] ∧
      (if ul + t < t then ul + t + 257#64 else ul + t).toNat = v := by
    refine ⟨_, (if ul + t < t then ul + t + 257#64 else ul + t).isLt, ?_, rfl⟩
    refine Nat.ModEq.trans ?_ cong.symm
    rw [← ht]
    by_cases hc : ul + t < t
    · rw [if_pos hc]
      rw [BitVec.lt_def, BitVec.toNat_add] at hc
      have : (ul + t + 257#64).toNat + (2 ^ 64 - 257) = ul.toNat + t.toNat := by
        rw [BitVec.toNat_add, BitVec.toNat_add]; simp; omega
      rw [← this]; simp [Nat.ModEq]
    · rw [if_neg hc]
      rw [BitVec.lt_def, BitVec.toNat_add] at hc
      rw [BitVec.toNat_add, Nat.mod_eq_of_lt (by omega)]
  obtain ⟨v, hv, hvc, hve⟩ := key
  generalize (if ul + t < t then ul + t + 257#64 else ul + t) = w at hve ⊢
  rw [← hvc]
  subst hve
  by_cases hc : w > Config.p64 - 1#64
  · rw [if_pos hc]
    rw [gt_iff_lt, BitVec.lt_def, hp] at hc
    rw [BitVec.toNat_add]; simp only [BitVec.toNat_ofNat]; clear * - hc hv; omega
  · rw [if_neg hc]
    rw [gt_iff_lt, BitVec.lt_def, hp] at hc
    clear * - hc hv; omega

/-- `l3hash` without its definition: a proof that unfolds it by evaluation does not end. -/
theorem l3hash_eq (p1 p2 k1 k2 len : Word) :
    l3hash p1 p2 k1 k2 len =
      l3MulMod (l3AddKey (l3DivMod (l3Reduce127 p1 p2 len).1 (l3Reduce127 p1 p2 len).2).1 k1)
        (l3AddKey (l3DivMod (l3Reduce127 p1 p2 len).1 (l3Reduce127 p1 p2 len).2).2 k2) := by
  simp only [l3hash]

end Sys2Proof.Machine
end

