-- ==== Sys2Proof/Laws/Ops.lean ====
section
/-! SUPPORT. One lemma for each shared operation of the controller and of the key store: everything it can do. -/

namespace Sys2Proof.Machine

variable {nk : Nat}

/-! ## Key store -/

theorem nhkAt_zero (i : Nat) : (KeyStore.zero : Sized.KeyStore nk).nhkAt i = 0#64 := by
  simp only [KeyStore.zero, Sized.KeyStore.nhkAt]
  rw [Vector.getElem?_replicate]; split <;> rfl

theorem nhkAt_setNhk (k : Sized.KeyStore nk) (i : Nat) (w : Word) (j : Nat) :
    (k.setNhk i w).nhkAt j = if i = j ∧ i < nk then w else k.nhkAt j := by
  simp only [Sized.KeyStore.setNhk, Sized.KeyStore.nhkAt, Vector.getElem?_setIfInBounds]
  by_cases h : i = j
  · by_cases h2 : i < nk
    · subst h; simp [h2]
    · subst h; simp [h2]
  · simp [h]

/-! ## START -/

theorem seededKey_vhc64 (k : Sized.KeyStore nk) (seed : Word) :
    seededKey vhc64 k seed =
      ((k.pkh ^^^ seed.rotateRight 24) &&& Config.mpoly, (k.pkl ^^^ seed) &&& Config.mpoly) := by
  simp [seededKey, seedMix, rotH, rotL, rotr64, BitVec.rotateRight, BitVec.rotateRightAux]

theorem seededKey_fst_lt (cfg : Config.Cfg) (k : Sized.KeyStore nk) (seed : Word) : (seededKey cfg k seed).1.toNat < 2 ^ 61 :=
  masked_lt (and_mpoly_and_not_mpoly _)

theorem seededKey_snd_lt (cfg : Config.Cfg) (k : Sized.KeyStore nk) (seed : Word) : (seededKey cfg k seed).2.toNat < 2 ^ 61 :=
  masked_lt (and_mpoly_and_not_mpoly _)

/-! ## The switches under the preset of the machine -/

theorem useAdd_part (fb : Bool) : useAdd vhc64 fb .part = false := by simp [useAdd]

theorem useAdd_full (fb : Bool) : useAdd vhc64 fb .full = !fb := by simp [useAdd]

theorem skipTail_vhc64 (len : Word) : skipTail vhc64 len = decide (len.toNat < 16) := by
  simp [skipTail, BitVec.lt_def]

theorem bitLen_toNat (len : Word) : (bitLen vhc64 len).toNat = 8 * len.toNat % 2 ^ 64 := by
  simp only [bitLen]
  rw [word_shiftLeft_toNat, Nat.mul_comm]; norm_num

/-! ## Absorb -/

/-- What `Absorb` writes: the chunk registers and nothing else. -/
theorem absorb_eq (k : Sized.KeyStore nk) (w : Word) (c : Call) :
    absorb k w c = { c with
      nhh := (absorb k w c).nhh, nhl := (absorb k w c).nhl, w0 := (absorb k w c).w0,
      wheld := (absorb k w c).wheld, wcnt := c.wcnt + 1#8 } := by
  simp only [absorb]; split <;> rfl

@[simp] theorem absorb_wcnt (k : Sized.KeyStore nk) (w : Word) (c : Call) : (absorb k w c).wcnt = c.wcnt + 1#8 := by
  rw [absorb_eq]

@[simp] theorem absorb_wheld (k : Sized.KeyStore nk) (w : Word) (c : Call) : (absorb k w c).wheld = !c.wheld := by
  simp only [absorb]; cases h : c.wheld <;> simp

@[simp] theorem absorb_spkh (k : Sized.KeyStore nk) (w : Word) (c : Call) : (absorb k w c).spkh = c.spkh := by rw [absorb_eq]
@[simp] theorem absorb_spkl (k : Sized.KeyStore nk) (w : Word) (c : Call) : (absorb k w c).spkl = c.spkl := by rw [absorb_eq]
@[simp] theorem absorb_ah (k : Sized.KeyStore nk) (w : Word) (c : Call) : (absorb k w c).ah = c.ah := by rw [absorb_eq]
@[simp] theorem absorb_al (k : Sized.KeyStore nk) (w : Word) (c : Call) : (absorb k w c).al = c.al := by rw [absorb_eq]
@[simp] theorem absorb_fb (k : Sized.KeyStore nk) (w : Word) (c : Call) : (absorb k w c).fb = c.fb := by rw [absorb_eq]
@[simp] theorem absorb_len (k : Sized.KeyStore nk) (w : Word) (c : Call) : (absorb k w c).len = c.len := by rw [absorb_eq]
@[simp] theorem absorb_be (k : Sized.KeyStore nk) (w : Word) (c : Call) : (absorb k w c).be = c.be := by rw [absorb_eq]
@[simp] theorem absorb_tagw (k : Sized.KeyStore nk) (w : Word) (c : Call) : (absorb k w c).tagw = c.tagw := by rw [absorb_eq]
@[simp] theorem absorb_tag (k : Sized.KeyStore nk) (w : Word) (c : Call) : (absorb k w c).tag = c.tag := by rw [absorb_eq]
@[simp] theorem absorb_phase (k : Sized.KeyStore nk) (w : Word) (c : Call) : (absorb k w c).phase = c.phase := by rw [absorb_eq]

theorem absorb_w0 (k : Sized.KeyStore nk) (w : Word) (c : Call) : (absorb k w c).w0 = if c.wheld then 0#64 else w := by
  simp only [absorb]; cases c.wheld <;> simp

/-- The pair of `Absorb` as a number, for a word count above 0. -/
theorem absorbPair_value (k : Sized.KeyStore nk) (w : Word) (c : Call) (h : 0 < c.wcnt.toNat) :
    pairValue (absorbPair k w c) =
      (c.nhh.toNat * 2 ^ 64 + c.nhl.toNat +
        (c.w0.toNat + (k.nhkAt (c.wcnt.toNat - 1)).toNat) % 2 ^ 64 *
        ((w.toNat + (k.nhkAt c.wcnt.toNat).toNat) % 2 ^ 64)) % 2 ^ 128 := by
  have hs : (c.wcnt - 1#8).toNat = c.wcnt.toNat - 1 := by
    have := c.wcnt.isLt; rw [BitVec.toNat_sub]; simp; omega
  rw [absorbPair, mulc_value, hs, BitVec.toNat_add, BitVec.toNat_add]

/-! ## Fold -/

/-- The add form of a fold, on a masked key (45_hash_pipeline.md R197). -/
theorem foldedAcc_add (cfg : Config.Cfg) (kind : FoldKind) (c : Call) (hu : useAdd cfg c.fb kind = true)
    (hk : c.spkh &&& ~~~Config.mpoly = 0#64) :
    pairValue (foldedAcc cfg kind c) =
      (c.nhh.toNat * 2 ^ 64 + c.nhl.toNat) % 2 ^ 126 + (c.spkh.toNat * 2 ^ 64 + c.spkl.toNat) := by
  rw [← pairValue_mk, ← pairValue_and_m62]
  simp only [foldedAcc, hu, if_true]
  rw [add128_value, pairValue, Nat.mod_eq_of_lt]
  have := masked_lt hk; have := c.spkl.isLt; have := c.nhl.isLt
  rw [and_m62_toNat]; omega

/-- The `poly_step` form of a fold, on a masked key (45_hash_pipeline.md R197; 43_poly.md R173). -/
theorem foldedAcc_poly (cfg : Config.Cfg) (kind : FoldKind) (c : Call) (hu : useAdd cfg c.fb kind = false)
    (hk : c.spkh &&& ~~~Config.mpoly = 0#64 ∧ c.spkl &&& ~~~Config.mpoly = 0#64) :
    pairValue (foldedAcc cfg kind c) ≡
      (c.ah.toNat * 2 ^ 64 + c.al.toNat) * (c.spkh.toNat * 2 ^ 64 + c.spkl.toNat) +
        (c.nhh.toNat * 2 ^ 64 + c.nhl.toNat) % 2 ^ 126 [MOD 2 ^ 127 - 1] ∧
    pairValue (foldedAcc cfg kind c) < 2 ^ 127 + 2 ^ 126 + 2 ^ 64 := by
  rw [← pairValue_mk c.nhh, ← pairValue_and_m62]
  simp only [foldedAcc, hu]
  exact polyStep_value _ _ _ _ _ _ (masked_lt hk.1) (masked_lt hk.2) (by rw [and_m62_toNat]; omega)

/-! ## PUSH -/

/-- A short beat: absorbed, and the phase goes to TAIL. -/
theorem pushCall_short {cfg : Config.Cfg} {k : Sized.KeyStore nk} {nb : Nat} {beat : Word} {c : Call} (h : nb < 8) :
    pushCall cfg k nb beat c = setPhase .tail (absorb k (wordOf beat nb c.be) (countBytes nb c)) := by
  simp [pushCall, h]

/-- A full beat that does not complete a chunk: absorbed. -/
theorem pushCall_full {k : Sized.KeyStore nk} {beat : Word} {c : Call} (h : c.wcnt.toNat ≠ 15) :
    pushCall vhc64 k 8 beat c = absorb k (wordOf beat 8 c.be) (countBytes 8 c) := by
  have : (c.wcnt + 1#8).toNat ≠ 16 := by rw [BitVec.toNat_add]; have := c.wcnt.isLt; simp; omega
  simp only [pushCall, absorb_wcnt, countBytes_wcnt, vhc64_nhWords, this]; simp

/-- A full beat that completes a chunk: absorbed, then folded. -/
theorem pushCall_fold {k : Sized.KeyStore nk} {beat : Word} {c : Call} (h : c.wcnt.toNat = 15) :
    pushCall vhc64 k 8 beat c = foldChunk vhc64 .full (absorb k (wordOf beat 8 c.be) (countBytes 8 c)) := by
  have : (c.wcnt + 1#8).toNat = 16 := by rw [BitVec.toNat_add]; simp; omega
  simp only [pushCall, absorb_wcnt, countBytes_wcnt, vhc64_nhWords, this]; simp

theorem pushCall_phase (cfg : Config.Cfg) (k : Sized.KeyStore nk) (nb : Nat) (beat : Word) (c : Call) :
    (pushCall cfg k nb beat c).phase = if nb < 8 then .tail else c.phase := by
  unfold pushCall; simp only
  by_cases h : nb < 8
  · rw [if_pos h, if_pos h, setPhase_phase]
  · rw [if_neg h, if_neg h]; split <;> simp

/-- What PUSH leaves of the call, whatever the beat. -/
theorem pushCall_frame (cfg : Config.Cfg) (k : Sized.KeyStore nk) (nb : Nat) (beat : Word) (c : Call) :
    (pushCall cfg k nb beat c).spkh = c.spkh ∧ (pushCall cfg k nb beat c).spkl = c.spkl ∧
    (pushCall cfg k nb beat c).be = c.be ∧ (pushCall cfg k nb beat c).tagw = c.tagw ∧
    (pushCall cfg k nb beat c).tag = c.tag ∧ (pushCall cfg k nb beat c).len = c.len + BitVec.ofNat 64 nb := by
  unfold pushCall; simp only
  split
  · simp
  · split <;> simp

/-! ## FINAL -/

/-- The partial fold writes the accumulator, sets `FB` and clears the chunk registers. -/
theorem foldTail_cases (cfg : Config.Cfg) (k : Sized.KeyStore nk) (c : Call) :
    ∃ hi lo, foldTail cfg k c = { c with
      ah := hi, al := lo, fb := true, nhh := 0#64, nhl := 0#64, w0 := 0#64, wheld := false, wcnt := 0#8 } := by
  unfold foldTail foldChunk
  simp only [clearChunk]
  split <;> exact ⟨_, _, rfl⟩

/-- FINAL without a fold. -/
theorem finalCall_skip {cfg : Config.Cfg} {k : Sized.KeyStore nk} {c : Call}
    (h : ¬(0 < c.wcnt.toNat ∧ skipTail cfg c.len = false)) :
    finalCall cfg k c = { c with
      nhh := 0#64, nhl := 0#64, w0 := 0#64, wheld := false, wcnt := 0#8, phase := .done,
      tag := l3hash c.ah c.al k.l3kh k.l3kl (bitLen cfg c.len) } := by
  unfold finalCall; rw [if_neg h]; simp only [clearChunk, setPhase]

/-- FINAL with a fold. -/
theorem finalCall_fold {cfg : Config.Cfg} {k : Sized.KeyStore nk} {c : Call} {hi lo : Word}
    (h : 0 < c.wcnt.toNat ∧ skipTail cfg c.len = false)
    (hf : foldTail cfg k c = { c with
      ah := hi, al := lo, fb := true, nhh := 0#64, nhl := 0#64, w0 := 0#64, wheld := false, wcnt := 0#8 }) :
    finalCall cfg k c = { c with
      ah := hi, al := lo, fb := true, nhh := 0#64, nhl := 0#64, w0 := 0#64, wheld := false, wcnt := 0#8,
      phase := .done, tag := l3hash hi lo k.l3kh k.l3kl (bitLen cfg c.len) } := by
  unfold finalCall; rw [if_pos h, hf]; simp only [clearChunk, setPhase]

/-- Everything FINAL can do: it writes the accumulator, `FB`, the chunk registers, the phase and the tag. -/
theorem finalCall_cases (cfg : Config.Cfg) (k : Sized.KeyStore nk) (c : Call) :
    ∃ hi lo fb, finalCall cfg k c = { c with
      ah := hi, al := lo, fb := fb, nhh := 0#64, nhl := 0#64, w0 := 0#64, wheld := false, wcnt := 0#8, phase := .done,
      tag := l3hash hi lo k.l3kh k.l3kl (bitLen cfg c.len) } := by
  by_cases h : 0 < c.wcnt.toNat ∧ skipTail cfg c.len = false
  · obtain ⟨hi, lo, hf⟩ := foldTail_cases cfg k c
    exact ⟨hi, lo, true, finalCall_fold h hf⟩
  · exact ⟨c.ah, c.al, c.fb, finalCall_skip h⟩

end Sys2Proof.Machine
end

