-- ==== Sys2Proof/Machine/Instance.lean ====
section
/-! DEFINITION. The machine of an instance of any configuration (00_scope.md R8): what a user of the model takes who
gives the OPEN parameter, a switch or an instance parameter another value. -/

namespace Sys2Proof.Machine

/-- The instance configured as `cfg`: `NK` key words, the step and the decoder at `cfg`, the reset state of R42. -/
def instanceOf (cfg : Config.Cfg) : Host.Core :=
  { State := Sized.State cfg.nk, Fault := Fault, Refusal := Refusal, step := fun s => acceptInput s cfg,
    reset := State.zero }

end Sys2Proof.Machine
end

