-- ==== Sys2Proof/Laws/Exec.lean ====
section
/-! SUPPORT. Everything a command can do, seen from outside its meaning, and everything a step can do. -/

namespace Sys2Proof.Machine

/-! ## Instances -/

/-- The command's meaning in an instance at this hardware's configuration is `exec`'s. -/
@[simp] theorem execIn_vhc64 (i : Instr) (s : State) : execIn vhc64 i s = exec i s := by cases i <;> rfl

/-- The instance at this hardware's configuration is the machine the host runs. -/
theorem instanceOf_vhc64 : instanceOf vhc64 = Sys2Proof.core := rfl

section
variable {nk : Nat} (cfg : Config.Cfg)

/-- Every command completes, in every instance. -/
theorem execIn_next (i : Instr) (s : Sized.State nk) : ∃ t, execIn cfg i s = .next t := by
  cases i <;> simp only [execIn, execNop, execRd, execClrerr, execLdnhk, execLdpk, execLdl3k, execKeydone, execKeyclr,
    execMul, execAdd128, execFma, execNh, execPoly, execL3, execStart, execPush, execFinal, execAbort, execRdtag,
    checkOr] <;> (repeat' split) <;> exact ⟨_, rfl⟩

theorem execCommand_next (i : Instr) (s : Sized.State nk) : ∃ t, execCommand i s cfg = .next t := by
  unfold execCommand
  split
  exacts [⟨_, rfl⟩, execIn_next cfg i s]

theorem execPacket_next (p : Packet) (s : Sized.State nk) : ∃ t, execPacket p s cfg = .next t := by
  unfold execPacket
  split
  · split <;> exact ⟨_, rfl⟩
  · exact execCommand_next cfg _ _

/-- Every instance has a next state for every input in every state (70_reset_and_hazards.md R282). -/
theorem acceptInput_next (s : Sized.State nk) : ∃ t, acceptInput s cfg = .next t := by
  unfold acceptInput
  split
  exacts [execPacket_next cfg _ _, ⟨_, rfl⟩, ⟨_, rfl⟩]

end

/-! ## Commands -/

/-- Every command completes. -/
theorem exec_next (i : Instr) (s : State) : ∃ t, exec i s = .next t := by
  simpa using execIn_next vhc64 i s

/-- No command takes or adds an input. -/
theorem exec_cmdIn {i : Instr} {s t : State} (h : exec i s = .next t) : t.cmdIn = s.cmdIn := by
  cases i <;> simp only [exec, execNop, execRd, execClrerr, execLdnhk, execLdpk, execLdl3k, execKeydone, execKeyclr,
    execMul, execAdd128, execFma, execNh, execPoly, execL3, execStart, execPush, execFinal, execAbort, execRdtag,
    checkOr] at h <;> (repeat' split at h) <;> cases h <;> rfl

/-- A command that leaves an error recorded where there was none has done nothing else. -/
theorem exec_raise {i : Instr} {s t : State} (hs : s.err = false) (h : exec i s = .next t) (ht : t.err = true) :
    ∃ e, t = raiseError e (headerWord i) s := by
  cases i <;> simp only [exec, execNop, execRd, execClrerr, execLdnhk, execLdpk, execLdl3k, execKeydone, execKeyclr,
    execMul, execAdd128, execFma, execNh, execPoly, execL3, execStart, execPush, execFinal, execAbort, execRdtag,
    checkOr] at h <;> (repeat' split at h) <;> cases h <;> first | exact ⟨_, rfl⟩ | simp_all

/-- A command responds with at most one word, and only RD and RDTAG respond. -/
theorem exec_rsp {i : Instr} {s t : State} (h : exec i s = .next t) :
    t.rsp = s.rsp ∨ ∃ v, t.rsp = s.rsp ++ [v] ∧ (i = .rdtag ∨ ∃ sel, i = .rd sel) := by
  cases i <;> simp only [exec, execNop, execRd, execClrerr, execLdnhk, execLdpk, execLdl3k, execKeydone, execKeyclr,
    execMul, execAdd128, execFma, execNh, execPoly, execL3, execStart, execPush, execFinal, execAbort, execRdtag,
    checkOr] at h <;> (repeat' split at h) <;> cases h <;> simp

/-- A command the gate passes, CLRERR apart, leaves the error registers. -/
theorem exec_gated_err {i : Instr} {s t : State} (hi : i ≠ .clrerr) (hg : passesGate i = true)
    (h : exec i s = .next t) : t.err = s.err ∧ t.ecode = s.ecode ∧ t.ecmd = s.ecmd := by
  cases i <;> simp_all [passesGate, exec, execNop, execRd, execAbort] <;> subst h <;> simp

/-- A command behind the gate, in the terms of `exec`. -/
theorem execCommand_eq (i : Instr) (s : State) :
    execCommand i s = if s.err && !passesGate i then .next s else exec i s := by
  simp [execCommand]

theorem execCommand_of_no_error {i : Instr} {s : State} (h : s.err = false) : execCommand i s = exec i s := by
  simp [execCommand, h]

theorem step_of_packet {s : State} {p : Packet} {rest : List PortInput} (h : s.cmdIn = packetBeats p ++ rest) :
    step s = execPacket p { s with cmdIn := rest } := by
  simp [step, acceptInput, h, arrival_packetBeats]

/-- Everything a step can do: a reset; nothing but taking input; recording the error of a malformed packet; or one
well-formed command that the gate lets pass. -/
theorem step_cases {s t : State} (h : step s = .next t) :
    (∃ rest, arrival s.cmdIn = .reset rest ∧ t = { State.reset with cmdIn := rest }) ∨
    (∃ inp, t = { s with cmdIn := inp }) ∨
    (∃ e hdr inp, s.err = false ∧ t = raiseError e hdr { s with cmdIn := inp }) ∨
    (∃ i inp, i.wf = true ∧ (s.err = false ∨ passesGate i = true) ∧ exec i { s with cmdIn := inp } = .next t) := by
  unfold step acceptInput at h
  split at h
  · rename_i p rest ha
    unfold execPacket execCommand at h
    split at h
    · split at h <;> cases h
      · exact .inr (.inl ⟨rest, rfl⟩)
      · exact .inr (.inr (.inl ⟨_, _, rest, by simp_all, rfl⟩))
    · rename_i i hi
      split at h <;> rename_i hg
      · cases h; exact .inr (.inl ⟨rest, rfl⟩)
      · refine .inr (.inr (.inr ⟨i, rest, decode_ok_wf hi, ?_, h⟩))
        simp at hg; cases he : s.err <;> simp_all
  · rename_i rest ha; cases h; exact .inl ⟨_, ha, rfl⟩
  · cases h; exact .inr (.inl ⟨s.cmdIn, rfl⟩)

/-- A run of a list of commands and then another. -/
theorem runCommands_append (a b : List Instr) (s : State) :
    runCommands (a ++ b) s =
      match runCommands a s with
      | .next t => runCommands b t
      | .fault f => .fault f
      | .refused r => .refused r := by
  induction a generalizing s with
  | nil => rfl
  | cons i l ih => simp only [List.cons_append, runCommands]; cases execCommand i s <;> simp [ih]

theorem exec_push {nb : Nat} {beat : Word} {s : State} (h : s.call.phase = .msg) :
    exec (.push nb beat) s = .next { s with call := pushCall vhc64 s.keys nb beat s.call } := by
  simp [exec, execPush, checkOr, h]

theorem exec_final {s : State} (h : s.call.phase.inCall = true) :
    exec .final s = .next { s with call := finalCall vhc64 s.keys s.call } := by
  simp [exec, execFinal, checkOr, h]

/-- L3 without the definition of `l3hash`: see `l3hash_eq`. -/
theorem exec_l3 (p1 p2 k1 k2 len : Word) (s : State) :
    exec (.l3 p1 p2 k1 k2 len) s = .next { s with rh := 0#64, rl := l3hash p1 p2 k1 k2 len } := by
  simp only [exec, execL3, setResult]

end Sys2Proof.Machine
end

