-- ==== Sys2Proof/Laws/Lanes.lean ====
section
/-! SUPPORT. Byte lanes: what a beat, a message word and a tag beat hold in each lane (20_memory.md R67 to R69, R71). -/

namespace Sys2Proof.Machine

theorem laneOf_toNat (x : Word) (i : Nat) : (laneOf x i).toNat = x.toNat / 2 ^ (8 * i) % 2 ^ 8 := by
  simp [laneOf, BitVec.extractLsb'_toNat, Nat.shiftRight_eq_div_pow]

/-- The low `n` bytes of a number as a sum. -/
theorem mod_eq_sum_bytes (x n : Nat) :
    x % 2 ^ (8 * n) = ∑ i ∈ Finset.range n, x / 2 ^ (8 * i) % 2 ^ 8 * 2 ^ (8 * i) := by
  induction n with
  | zero => simp [Nat.mod_one]
  | succ n ih =>
    rw [Finset.sum_range_succ, ← ih, show 8 * (n + 1) = 8 * n + 8 by ring, pow_add, Nat.mod_mul]; ring

theorem eq_of_lanes {x y : Word} (h : ∀ i, i < 8 → laneOf x i = laneOf y i) : x = y := by
  apply BitVec.eq_of_toNat_eq
  have hx := mod_eq_sum_bytes x.toNat 8
  have hy := mod_eq_sum_bytes y.toNat 8
  rw [Nat.mod_eq_of_lt x.isLt] at hx
  rw [Nat.mod_eq_of_lt y.isLt] at hy
  rw [hx, hy]
  apply Finset.sum_congr rfl
  intro i hi
  have := congrArg BitVec.toNat (h i (by simpa using hi))
  rw [laneOf_toNat, laneOf_toNat] at this
  rw [this]

theorem ofLanes_toNat (f : Nat → Byte) : (ofLanes f).toNat = ∑ i ∈ Finset.range 8, (f i).toNat * 2 ^ (8 * i) := by
  simp only [ofLanes, append_toNat, Finset.sum_range_succ, Finset.sum_range_zero]; ring

theorem laneOf_ofLanes (f : Nat → Byte) {i : Nat} (h : i < 8) : laneOf (ofLanes f) i = f i := by
  apply BitVec.eq_of_toNat_eq
  rw [laneOf_toNat, ofLanes_toNat]
  simp only [Finset.sum_range_succ, Finset.sum_range_zero]
  have := (f 0).isLt; have := (f 1).isLt; have := (f 2).isLt; have := (f 3).isLt
  have := (f 4).isLt; have := (f 5).isLt; have := (f 6).isLt; have := (f 7).isLt
  interval_cases i <;> norm_num <;> omega

theorem laneOf_bswap64 (x : Word) {i : Nat} (h : i < 8) : laneOf (bswap64 x) i = laneOf x (7 - i) := by
  rw [bswap64, laneOf_ofLanes _ h]

theorem validLanes_toNat (x : Word) {nb : Nat} (h : nb ≤ 8) : (validLanes x nb).toNat = x.toNat % 2 ^ (8 * nb) := by
  have hp : 2 ^ (8 * nb) ≤ 2 ^ 64 := Nat.pow_le_pow_right (by norm_num) (by omega)
  have : 0 < 2 ^ (8 * nb) := by positivity
  unfold validLanes
  rw [BitVec.toNat_and, BitVec.toNat_ofNat, Nat.mod_eq_of_lt (by omega), Nat.and_two_pow_sub_one_eq_mod]

/-- Forcing lanes `nb` to 7 to zero keeps the others (20_memory.md R71). -/
theorem laneOf_validLanes (x : Word) {nb : Nat} (i : Nat) (h : nb ≤ 8) :
    laneOf (validLanes x nb) i = if i < nb then laneOf x i else 0#8 := by
  apply BitVec.eq_of_toNat_eq
  rw [laneOf_toNat, validLanes_toNat _ h]
  split <;> rename_i hi
  · rw [laneOf_toNat]
    have : 2 ^ (8 * nb) = 2 ^ (8 * i) * 2 ^ (8 * (nb - i)) := by rw [← pow_add]; congr 1; omega
    rw [this, Nat.mod_mul_right_div_self, Nat.mod_mod_of_dvd]
    exact pow_dvd_pow 2 (by omega)
  · rw [Nat.div_eq_of_lt]; rfl
    calc _ < 2 ^ (8 * nb) := Nat.mod_lt _ (by positivity)
      _ ≤ _ := Nat.pow_le_pow_right (by norm_num) (by omega)

theorem bswap32_toNat (x : BitVec 32) :
    (bswap32 x).toNat = x.toNat % 2 ^ 8 * 2 ^ 24 + x.toNat / 2 ^ 8 % 2 ^ 8 * 2 ^ 16 + x.toNat / 2 ^ 16 % 2 ^ 8 * 2 ^ 8 +
      x.toNat / 2 ^ 24 % 2 ^ 8 := by
  simp only [bswap32, append_toNat, BitVec.extractLsb'_toNat, Nat.shiftRight_eq_div_pow]
  simp only [pow_zero, Nat.div_one]; ring

theorem laneOf_setWidth (v : BitVec 32) (i : Nat) : laneOf (v.setWidth 64) i = v.extractLsb' (8 * i) 8 := by
  apply BitVec.eq_of_toNat_eq
  have := v.isLt
  rw [laneOf_toNat, BitVec.toNat_setWidth, Nat.mod_eq_of_lt (a := v.toNat) (b := 2 ^ 64) (by omega),
    BitVec.extractLsb'_toNat, Nat.shiftRight_eq_div_pow]

theorem byte_of_low_half (x : Word) {i : Nat} (h : i < 4) :
    (x.extractLsb' 0 32).extractLsb' (8 * i) 8 = laneOf x i := by
  apply BitVec.eq_of_toNat_eq
  rw [laneOf_toNat, BitVec.extractLsb'_toNat, BitVec.extractLsb'_toNat, Nat.shiftRight_eq_div_pow,
    Nat.shiftRight_eq_div_pow]
  interval_cases i <;> norm_num <;> omega

theorem byte_of_bswap32 (x : BitVec 32) {i : Nat} (h : i < 4) :
    (bswap32 x).extractLsb' (8 * i) 8 = x.extractLsb' (8 * (3 - i)) 8 := by
  apply BitVec.eq_of_toNat_eq
  rw [BitVec.extractLsb'_toNat, BitVec.extractLsb'_toNat, bswap32_toNat, Nat.shiftRight_eq_div_pow,
    Nat.shiftRight_eq_div_pow]
  have := Nat.mod_lt x.toNat (show 256 > 0 by norm_num)
  have := Nat.mod_lt (x.toNat / 256) (show 256 > 0 by norm_num)
  have := Nat.mod_lt (x.toNat / 65536) (show 256 > 0 by norm_num)
  have h3 := Nat.mod_eq_of_lt (show x.toNat / 16777216 < 256 by have := x.isLt; omega)
  interval_cases i <;> norm_num <;> (
    simp only [h3]
    generalize x.toNat / 256 % 256 = b1 at *
    generalize x.toNat / 65536 % 256 = b2 at *
    generalize x.toNat / 16777216 = b3 at *
    generalize x.toNat % 256 = b0 at *
    omega)

theorem byte_above_word32 (x : BitVec 32) {i : Nat} (h : 4 ≤ i) : x.extractLsb' (8 * i) 8 = 0#8 := by
  apply BitVec.eq_of_toNat_eq
  rw [BitVec.extractLsb'_toNat, Nat.shiftRight_eq_div_pow, Nat.div_eq_of_lt]
  · rfl
  · exact lt_of_lt_of_le x.isLt (Nat.pow_le_pow_right (by norm_num) (by omega))

end Sys2Proof.Machine
end

