-- ==== Sys2Proof/Laws/PerInstr.lean ====
section
/-! SUPPORT. The family EncodedHeader, proved for each command: what the encoder puts into the header of its packet. -/

namespace Sys2Proof.Laws.EncodedHeader

/-- The header of the packet of a command holds its opcode and its `ARG`, and its reserved fields are 0
(30_encoding.md R90). -/
def Statement (i : Instr) : Prop :=
  (encode i).opc = i.opcode.code ∧ (encode i).arg = i.arg ∧ (encode i).rsv = 0#16 ∧ (encode i).rsvh = 0#32

theorem of_headerOf (i : Instr) : Statement i :=
  ⟨opc_headerOf _ _ _, arg_headerOf _ _ _, rsv_headerOf _ _ _, rsvh_headerOf _ _ _⟩

theorem nop : Statement .nop := of_headerOf _
theorem rd (sel : RdSel) : Statement (.rd sel) := of_headerOf _
theorem clrerr : Statement .clrerr := of_headerOf _
theorem ldnhk (i : Nat) (w : Word) : Statement (.ldnhk i w) := of_headerOf _
theorem ldpk (s : Half) (w : Word) : Statement (.ldpk s w) := of_headerOf _
theorem ldl3k (s : Half) (w : Word) : Statement (.ldl3k s w) := of_headerOf _
theorem keydone : Statement .keydone := of_headerOf _
theorem keyclr : Statement .keyclr := of_headerOf _
theorem mul (a b : Word) : Statement (.mul a b) := of_headerOf _
theorem add128 (aHi aLo bHi bLo : Word) : Statement (.add128 aHi aLo bHi bLo) := of_headerOf _
theorem fma (a b : Word) : Statement (.fma a b) := of_headerOf _
theorem nh (m : List Word) : Statement (.nh m) := of_headerOf _
theorem poly (accHi accLo keyHi keyLo msgHi msgLo : Word) :
    Statement (.poly accHi accLo keyHi keyLo msgHi msgLo) := of_headerOf _
theorem l3 (accHi accLo keyHi keyLo bitLength : Word) : Statement (.l3 accHi accLo keyHi keyLo bitLength) :=
  of_headerOf _
theorem start (be tagw : Bool) (seed : Word) : Statement (.start be tagw seed) := of_headerOf _
theorem push (nb : Nat) (beat : Word) : Statement (.push nb beat) := of_headerOf _
theorem final : Statement .final := of_headerOf _
theorem abort : Statement .abort := of_headerOf _
theorem rdtag : Statement .rdtag := of_headerOf _

end Sys2Proof.Laws.EncodedHeader
end

