-- ==== Sys2Proof/Machine/Assembler.lean ====
section
/-! DEFINITION. The listing syntax of 30_encoding.md R97, one command per line:
`MNEMONIC [arg] [; w0, w1, ...]`, a `#` starting a comment. A line is a list of characters; its encoding is the
header word `(OPC << 24) | ARG` and the payload words. Range and length are not checked here: a listing may hold a
malformed packet, which the block then refuses. -/

namespace Sys2Proof.Machine

/-- The mnemonic of a command (30_encoding.md R93). -/
def mnemonicOf : Opcode → List Char
  | .nop => ['N', 'O', 'P']
  | .rd => ['R', 'D']
  | .clrerr => ['C', 'L', 'R', 'E', 'R', 'R']
  | .ldnhk => ['L', 'D', 'N', 'H', 'K']
  | .ldpk => ['L', 'D', 'P', 'K']
  | .ldl3k => ['L', 'D', 'L', '3', 'K']
  | .keydone => ['K', 'E', 'Y', 'D', 'O', 'N', 'E']
  | .keyclr => ['K', 'E', 'Y', 'C', 'L', 'R']
  | .mul => ['M', 'U', 'L']
  | .add128 => ['A', 'D', 'D', '1', '2', '8']
  | .fma => ['F', 'M', 'A']
  | .nh => ['N', 'H']
  | .poly => ['P', 'O', 'L', 'Y']
  | .l3 => ['L', '3']
  | .start => ['S', 'T', 'A', 'R', 'T']
  | .push => ['P', 'U', 'S', 'H']
  | .final => ['F', 'I', 'N', 'A', 'L']
  | .abort => ['A', 'B', 'O', 'R', 'T']
  | .rdtag => ['R', 'D', 'T', 'A', 'G']

/-- Cuts a text at every occurrence of a character. -/
def cutAt (c : Char) : List Char → List (List Char)
  | [] => [[]]
  | x :: rest =>
    match cutAt c rest with
    | [] => [[x]]
    | first :: more => if x = c then [] :: first :: more else (x :: first) :: more

/-- The blank-separated words of a text. -/
def blankWords (cs : List Char) : List (List Char) := (cutAt ' ' cs).filter fun w => !w.isEmpty

/-- The value of a digit in a base up to 16. -/
def digitValue (base : Nat) (c : Char) : Option Nat :=
  let n := c.toNat
  let v := if 48 ≤ n ∧ n ≤ 57 then n - 48
    else if 65 ≤ n ∧ n ≤ 70 then n - 55
    else if 97 ≤ n ∧ n ≤ 102 then n - 87
    else base
  if v < base then some v else none

/-- The number written by a list of digits, after the value read so far. -/
def readDigits (base acc : Nat) : List Char → Option Nat
  | [] => some acc
  | c :: rest => (digitValue base c).bind fun d => readDigits base (acc * base + d) rest

/-- A decimal number, or a hexadecimal one after `0x` (R97). -/
def readNumber : List Char → Option Nat
  | [] => none
  | '0' :: 'x' :: d :: rest => readDigits 16 0 (d :: rest)
  | cs => readDigits 10 0 cs

/-- A payload word: a hexadecimal number of 64 bits, with or without `0x` (R97). -/
def readWord (cs : List Char) : Option Word :=
  match blankWords cs with
  | [w] =>
    let digits := match w with
      | '0' :: 'x' :: rest => rest
      | _ => w
    if digits.isEmpty then none
    else (readDigits 16 0 digits).bind fun n => if n < 2 ^ 64 then some (BitVec.ofNat 64 n) else none
  | _ => none

/-- A flag name of START: `LE` (0), `BE` (1), `T64` (0), `T32` (2) (R97). -/
def readFlag (cs : List Char) : Option Nat :=
  if cs = ['L', 'E'] then some 0
  else if cs = ['B', 'E'] then some 1
  else if cs = ['T', '6', '4'] then some 0
  else if cs = ['T', '3', '2'] then some 2
  else none

/-- `arg`: a number below 256, or for START flag names joined by `|` (R97). -/
def readArg (o : Opcode) (cs : List Char) : Option (BitVec 8) :=
  match readNumber cs with
  | some n => if n < 256 then some (BitVec.ofNat 8 n) else none
  | none =>
    if o = .start then
      ((cutAt '|' cs).mapM readFlag).map fun fs => BitVec.ofNat 8 (fs.foldl (· ||| ·) 0)
    else none

/-- The packet of a header word and payload words (R97; 30_encoding.md R90). -/
def assemble (o : Opcode) (arg : BitVec 8) (words : List Word) : Packet :=
  ⟨(headerOf o arg).setWidth 64, words⟩

/-- The packet a line encodes; `none` for a line that is no command (R97). -/
def assembleLine (line : List Char) : Option Packet :=
  let parts := cutAt ';' (line.takeWhile fun c => c ≠ '#')
  let words := match parts with
    | [_, ws] => (cutAt ',' ws).mapM readWord
    | [_] => some []
    | _ => none
  match blankWords (parts.headD []) with
  | [mn] =>
    (Opcode.all.find? fun o => mnemonicOf o = mn).bind fun o => words.map fun ws => assemble o 0#8 ws
  | [mn, arg] =>
    (Opcode.all.find? fun o => mnemonicOf o = mn).bind fun o =>
      (readArg o arg).bind fun a => words.map fun ws => assemble o a ws
  | _ => none

end Sys2Proof.Machine
end

