-- ==== Sys2Proof/Tests/Slice0.lean ====
section
/-! SUPPORT. Tests: expected values are those of spec/95_test_vectors.md (named V-...) and of the corner-case tables of the
rules; then, for each statement with hypotheses, a witness that meets them. -/

namespace Sys2Proof.Tests

open Sys2Proof Sys2Proof.Machine Sys2Proof.Safety

/-! ## Helpers -/

/-- The next state of an outcome. -/
def after {nk : Nat} (r : Sized.Result nk) : Option (Sized.State nk) :=
  match r with
  | .next t => some t
  | .fault _ => none
  | .refused _ => none

/-- The result pair a command leaves. -/
def pairOf (r : Result) : Option DWord := (after r).map fun t => (t.rh, t.rl)

/-- Key set T1 (95_test_vectors.md section 2). -/
def keysT1 : KeyStore :=
  { nhk := Vector.ofFn fun i => 0x9E3779B97F4A7C15#64 * BitVec.ofNat 64 (i.val + 1),
    pkh := 0x0123456789ABCDEF#64, pkl := 0xFEDCBA9876543210#64,
    l3kh := 0x0F1E2D3C4B5A6978#64, l3kl := 0x8877665544332211#64, kv := true }

/-- A device keyed with T1. -/
def keyed : State := { State.reset with keys := keysT1 }

/-- Keyed, after START with flags 0 and seed 0: PHASE is MSG. -/
def inMsg : State := { keyed with call := startCall vhc64 keysT1 false false 0#64 }

/-- `inMsg` after PUSH 3: PHASE is TAIL. -/
def inTail : State := { inMsg with call := pushCall vhc64 keysT1 3 0x112233#64 inMsg.call }

/-- A finished call with a tag of our own. -/
def inDone : State := { keyed with call := { Call.zero with phase := .done, tag := 0x0123456789ABCDEF#64 } }

/-- An error recorded: V-ERR2's. -/
def withError : State := { keyed with err := true, ecode := 1#4, ecmd := 0xFF000000#32 }

/-- A state with a packet presented next. -/
def presenting (p : Packet) (s : State) : State := present (packetBeats p) s

/-! ## WellFormed -/

theorem test_wf_ldnhk_range : (Instr.ldnhk 15 0#64).wf = true ∧ (Instr.ldnhk 16 0#64).wf = false := by decide
theorem test_wf_nh_empty : (Instr.nh []).wf = false := by decide
theorem test_wf_nh_odd : (Instr.nh [1#64, 2#64, 3#64]).wf = false := by decide
theorem test_wf_nh_long : (Instr.nh (List.replicate 18 0#64)).wf = false := by decide
theorem test_wf_push_zero : (Instr.push 0 0#64).wf = false := by decide
theorem test_wf_push_nine : (Instr.push 9 0#64).wf = false := by decide
theorem test_nhBytes_ok : vhc64.ok ∧ presetRef.ok := by decide

/-! ## Encodings: V-ENC1 to V-ENC19, the header written out in hexadecimal -/

theorem test_decode_nop : decode ⟨0x00000000#64, []⟩ = .ok .nop := by decide
theorem test_decode_rd : decode ⟨0x01000004#64, []⟩ = .ok (.rd .id) := by decide
theorem test_decode_clrerr : decode ⟨0x02000000#64, []⟩ = .ok .clrerr := by decide
theorem test_decode_ldnhk :
    decode ⟨0x1000000F#64, [0xE3779B97F4A7C150#64]⟩ = .ok (.ldnhk 15 0xE3779B97F4A7C150#64) := by decide
theorem test_decode_ldpk :
    decode ⟨0x11000001#64, [0xFEDCBA9876543210#64]⟩ = .ok (.ldpk .low 0xFEDCBA9876543210#64) := by decide
theorem test_decode_ldl3k :
    decode ⟨0x12000000#64, [0x0F1E2D3C4B5A6978#64]⟩ = .ok (.ldl3k .high 0x0F1E2D3C4B5A6978#64) := by decide
theorem test_decode_keydone : decode ⟨0x13000000#64, []⟩ = .ok .keydone := by decide
theorem test_decode_keyclr : decode ⟨0x14000000#64, []⟩ = .ok .keyclr := by decide
theorem test_decode_mul : decode ⟨0x20000000#64, [3#64, 5#64]⟩ = .ok (.mul 3#64 5#64) := by decide
theorem test_decode_add128 :
    decode ⟨0x21000000#64, [0#64, 1#64, 0#64, 2#64]⟩ = .ok (.add128 0#64 1#64 0#64 2#64) := by decide
theorem test_decode_fma : decode ⟨0x22000000#64, [3#64, 5#64]⟩ = .ok (.fma 3#64 5#64) := by decide
theorem test_decode_nh : decode ⟨0x23000002#64, [2#64, 3#64]⟩ = .ok (.nh [2#64, 3#64]) := by decide
theorem test_decode_poly :
    decode ⟨0x24000000#64, [0#64, 3#64, 0#64, 5#64, 0#64, 7#64]⟩ = .ok (.poly 0#64 3#64 0#64 5#64 0#64 7#64) := by decide
theorem test_decode_l3 :
    decode ⟨0x25000000#64, [0#64, 0#64, 1#64, 1#64, 0#64]⟩ = .ok (.l3 0#64 0#64 1#64 1#64 0#64) := by decide
theorem test_decode_start :
    decode ⟨0x30000003#64, [0x0123456789ABCDEF#64]⟩ = .ok (.start true true 0x0123456789ABCDEF#64) := by decide
theorem test_decode_push : decode ⟨0x31000003#64, [0x636261#64]⟩ = .ok (.push 3 0x636261#64) := by decide
theorem test_decode_final : decode ⟨0x32000000#64, []⟩ = .ok .final := by decide
theorem test_decode_abort : decode ⟨0x33000000#64, []⟩ = .ok .abort := by decide
theorem test_decode_rdtag : decode ⟨0x34000000#64, []⟩ = .ok .rdtag := by decide

/-- V-ENC16's line and the word it stands for. -/
theorem test_assemble_push :
    assembleLine "PUSH 3 ; 0x0000000000636261".toList = some ⟨0x31000003#64, [0x636261#64]⟩ := by decide

/-- V-ENC15's second spelling. -/
theorem test_assemble_flags :
    assembleLine "START BE|T32 ; 0x0123456789ABCDEF".toList = some ⟨0x30000003#64, [0x0123456789ABCDEF#64]⟩ := by
  decide

/-! ## Errors of the form: V-ERR1, V-ERR6, V-ERR8, V-ERR12, V-ERR13, V-ERR16, V-ERR27 -/

theorem test_opcode_before_field : decode ⟨0x0000000140000000#64, []⟩ = .error .opc := by decide
theorem test_field_before_length : decode ⟨0x20000001#64, [0#64, 0#64, 0#64]⟩ = .error .field := by decide
theorem test_short_mul : decode ⟨0x20000000#64, [0#64]⟩ = .error .len := by decide
theorem test_nh_count_18 : decode ⟨0x23000012#64, List.replicate 18 0#64⟩ = .error .field := by decide
theorem test_length_before_key : decode ⟨0x23000004#64, [0#64, 0#64]⟩ = .error .len := by decide
theorem test_start_reserved_flag : decode ⟨0x30000004#64, [0#64]⟩ = .error .field := by decide
theorem test_push_count_9 : decode ⟨0x31000009#64, [0#64]⟩ = .error .field := by decide

/-! ## System commands -/

/-- 46_system.md R230. -/
theorem test_nop : after (exec .nop inMsg) = some inMsg := by decide

/-- V-RD2. -/
theorem test_rd_id : (after (exec (.rd .id) State.reset)).map (fun t => t.rsp) = some [0x0000101000015648#64] := by decide

/-- V-RD4: STATUS after START 3. -/
theorem test_rd_status :
    (after (exec (.start true true 0#64) keyed)).map statusWord = some 0x0000000000000303#64 := by decide

/-- 60_exceptions.md R248. -/
theorem test_clrerr : after (exec .clrerr withError) = some keyed := by decide

/-! ## Key store -/

/-- V-KS1. -/
theorem test_ldnhk :
    (after (exec (.ldnhk 5 0xB54CDA58FBBEE87E#64) State.reset)).map (fun t => (t.keys.nhkAt 5, t.keys.nhkAt 4)) =
      some (0xB54CDA58FBBEE87E#64, 0#64) := by decide

/-- V-KS10: E_KEYLOCK, STATUS 0x049. -/
theorem test_ldnhk_locked :
    (after (exec (.ldnhk 0 1#64) keyed)).map (fun t => (statusWord t, t.keys.nhkAt 0)) =
      some (0x49#64, 0x9E3779B97F4A7C15#64) := by decide

/-- V-KS4: stored unmasked. -/
theorem test_ldpk :
    (after (exec (.ldpk .high 0xFFFFFFFFFFFFFFFF#64) State.reset)).map (fun t => (t.keys.pkh, t.keys.pkl)) =
      some (0xFFFFFFFFFFFFFFFF#64, 0#64) := by decide

/-- V-KS6: the largest accepted word. -/
theorem test_ldl3k :
    (after (exec (.ldl3k .high 0xFFFFFFFFFFFFFEFE#64) State.reset)).map (fun t => (t.keys.l3kh, t.err)) =
      some (0xFFFFFFFFFFFFFEFE#64, false) := by decide

/-- V-KS7: p64 itself is refused. -/
theorem test_ldl3k_range :
    (after (exec (.ldl3k .high 0xFFFFFFFFFFFFFEFF#64) State.reset)).map (fun t => (statusWord t, t.ecmd, t.keys.l3kh)) =
      some (0x78#64, 0x12000000#32, 0#64) := by decide

/-- V-KS9. -/
theorem test_keydone : (after (exec .keydone State.reset)).map statusWord = some 1#64 := by decide

/-- V-KS13. -/
theorem test_keyclr : after (exec .keyclr inDone) = some State.reset := by decide

/-- V-KS14: E_PHASE, STATUS 0x06B. -/
theorem test_keyclr_in_call : (after (exec .keyclr inMsg)).map statusWord = some 0x6B#64 := by decide

/-! ## Unit commands -/

/-- V-MUL6. -/
theorem test_mul : pairOf (exec (.mul 0x0123456789ABCDEF#64 0xFEDCBA9876543210#64) State.reset) =
    some (0x0121FA00AD77D742#64, 0x2236D88FE5618CF0#64) := by decide

/-- V-MUL4. -/
theorem test_mul_max : pairOf (exec (.mul 0xFFFFFFFFFFFFFFFF#64 0xFFFFFFFFFFFFFFFF#64) State.reset) =
    some (0xFFFFFFFFFFFFFFFE#64, 1#64) := by decide

/-- V-ADD6: a carry between the words. -/
theorem test_add128 :
    pairOf (exec (.add128 0x0123456789ABCDEF#64 0xFEDCBA9876543210#64 0x1111111111111111#64 0x2222222222222222#64)
      State.reset) = some (0x123456789ABCDF01#64, 0x20FEDCBA98765432#64) := by decide

/-- V-FMA4: the accumulated sum wraps. -/
theorem test_fma :
    pairOf (exec (.fma 0xFFFFFFFFFFFFFFFF#64 0xFFFFFFFFFFFFFFFF#64)
      { State.reset with rh := 0xFFFFFFFFFFFFFFFF#64, rl := 0xFFFFFFFFFFFFFFFF#64 }) =
      some (0xFFFFFFFFFFFFFFFE#64, 0#64) := by decide

/-- V-NH5: bits 127:126 are not masked. -/
theorem test_nh : pairOf (exec (.nh [0x322B241D160F0801#64, 0x6A635C554E474039#64]) keyed) =
    some (0x87CB2430192FA051#64, 0x6D26E1FB616AE482#64) := by decide

/-- V-NH8: the full count, every word sum wrapping. -/
theorem test_nh_full : pairOf (exec (.nh (List.replicate 16 0xFFFFFFFFFFFFFFFF#64)) keyed) =
    some (0x9E251F8A6BA266DC#64, 0xD0AA829BE2B2D688#64) := by decide

/-- V-PO7. -/
theorem test_poly :
    pairOf (exec (.poly 0x0123456789ABCDEF#64 0xFEDCBA9876543210#64 0x0123456701234567#64 0x1FFFFFFF00000001#64
      0x3000000000000000#64 9#64) State.reset) = some (0x814CC6F986594AF4#64, 0xD4E08052342A74FA#64) := by
  decide

/-- V-PO6: outside the contract. -/
theorem test_poly_all_ones :
    pairOf (exec (.poly 0xFFFFFFFFFFFFFFFF#64 0xFFFFFFFFFFFFFFFF#64 0xFFFFFFFFFFFFFFFF#64 0xFFFFFFFFFFFFFFFF#64
      0xFFFFFFFFFFFFFFFF#64 0xFFFFFFFFFFFFFFFF#64) State.reset) =
      some (0x7FFFFFFFFFFFFFFD#64, 0xFFFFFFFFFFFFFFFB#64) := by decide

/-- V-PO5, the value that 43_poly.md R173 calls the largest, is below V-PO7's (log 18). -/
theorem test_poly_largest_named :
    polyStep Config.m64 Config.m64 Config.mpoly Config.mpoly Config.m62 Config.m64 =
      (0x5FFFFFFF1FFFFFFF#64, 0x1FFFFFFF1FFFFFFE#64) ∧
    0x5FFFFFFF1FFFFFFF#64 < (polyStep 0x0123456789ABCDEF#64 0xFEDCBA9876543210#64 0x0123456701234567#64
      0x1FFFFFFF00000001#64 0x3000000000000000#64 9#64).1 := by decide

/-- V-L39. -/
theorem test_l3 :
    pairOf (exec (.l3 0x799A63B64C50EA49#64 0x0EF9CFB8A719687C#64 0x0F1E2D3C4B5A6978#64 0x8877665544332211#64 0x88#64)
      State.reset) = some (0#64, 0xF63C9E1CF7FC6459#64) := by decide

/-- V-L310: a length of 2^63 or more. -/
theorem test_l3_long :
    pairOf (exec (.l3 0xFFFFFFFF#64 0xFFFFFFFFFFFFFFFF#64 0x54370F419340D631#64 0xFB571343E029F09A#64
      0xFFFFFFFF00000000#64) State.reset) = some (0#64, 0x4A9A4D06630D0240#64) := by decide

/-! ## Hash pipeline -/

/-- V-SPK3. -/
theorem test_start :
    (after (exec (.start false false 0x0123456789ABCDEF#64) keyed)).map (fun t => (t.call.spkh, t.call.spkl)) =
      some (0x0AEEAA660AEEAA66#64, 0x1FFFFFFF1FFFFFFF#64) := by decide

/-- V-ERR29: START during a call. -/
theorem test_start_in_call :
    (after (exec (.start false false 0#64) inMsg)).map (fun t => (statusWord t, t.ecmd)) =
      some (0x6B#64, 0x30000000#32) := by decide

/-- V-TR17, the first PUSH. -/
theorem test_push :
    (after (exec (.push 8 0x322B241D160F0801#64) inMsg)).map (fun t => (t.call.len, t.call.w0, t.call.wcnt)) =
      some (8#64, 0x322B241D160F0801#64, 1#8) := by decide

/-- V-ERR32: PUSH after a short beat. -/
theorem test_push_in_tail :
    (after (exec (.push 8 0#64) inTail)).map (fun t => (statusWord t, t.call)) = some (0x6D#64, inTail.call) := by
  decide

/-- V-TAG row 1: any one-byte message. -/
theorem test_final_short :
    (after (exec .final { inMsg with call := pushCall vhc64 keysT1 1 0x01#64 inMsg.call })).map (fun t => t.call.tag) =
      some 0x564D28168E9A549D#64 := by decide

/-- V-TR17: FINAL after 17 bytes. -/
theorem test_final_fold :
    (after (exec .final { inMsg with
      call := pushCall vhc64 keysT1 1 0x71#64 (pushCall vhc64 keysT1 8 0x6A635C554E474039#64
        (pushCall vhc64 keysT1 8 0x322B241D160F0801#64 inMsg.call)) })).map
      (fun t => (t.call.ah, t.call.al, t.call.tag)) =
      some (0x799A63B64C50EA49#64, 0x0EF9CFB8A719687C#64, 0xF63C9E1CF7FC6459#64) := by decide

/-- 45_hash_pipeline.md R202. -/
theorem test_abort : after (exec .abort inTail) = some keyed := by decide

/-- 45_hash_pipeline.md R204: the tag beat of the four flag pairs (the tag of V-TAG row 0). -/
theorem test_rdtag_beats :
    tagBeat false false 0x13E79EC92CBEFE75#64 = 0x13E79EC92CBEFE75#64 ∧
    tagBeat true false 0x13E79EC92CBEFE75#64 = 0x75FEBE2CC99EE713#64 ∧
    tagBeat false true 0x13E79EC92CBEFE75#64 = 0x000000002CBEFE75#64 ∧
    tagBeat true true 0x13E79EC92CBEFE75#64 = 0x0000000075FEBE2C#64 := by decide

/-- V-ERR25: RDTAG in IDLE. -/
theorem test_rdtag_in_idle :
    (after (exec .rdtag keyed)).map (fun t => (statusWord t, t.rsp)) = some (0x69#64, []) := by decide

/-- V-SEED, n = 17, the last seed, through the function of R205. -/
theorem test_vhash :
    vhash vhc64 keysT1 ((List.range 17).map fun i => BitVec.ofNat 8 (7 * i + 1)) 0xFFFFFFFFFFFFFFFF#64 false =
      0x63C535F043080DE2#64 := by decide

/-! ## Instances of another configuration (00_scope.md R8, R9) -/

/-- V-TAGREF, n = 1: FINAL in an instance at preset REF. -/
theorem test_instance_ref_final :
    (after (acceptInput (presenting (encode .final) { inMsg with
      call := pushCall presetRef keysT1 1 0x01#64 inMsg.call }) presetRef)).map (fun t => t.call.tag) =
      some 0x57F20C47D8A96358#64 := by decide

/-- 45_hash_pipeline.md R191: START with another `SEEDMIX`, worked by hand. -/
theorem test_instance_seedmix :
    (after (acceptInput (presenting (encode (.start false false 0xFFFFFFFFFFFFFFFF#64)) keyed)
      { vhc64 with seedMix := fun seed => (seed, 0#64) })).map (fun t => (t.call.spkh, t.call.spkl)) =
      some (0x1EDCBA9816543210#64, 0x1EDCBA9816543210#64) := by decide

/-- A chunk of 64 bytes and one extra lane: `NHWORDS` = 8, `NK` = 10. -/
def smallChunk : Config.Cfg := { vhc64 with nhBytes := 64, nhExtra := 1 }

/-- 10_state.md R28, 30_encoding.md R96: `ID` and the range of LDNHK follow the configuration. -/
theorem test_instance_sizes : smallChunk.ok ∧
    (after ((instanceOf smallChunk).step (present (packetBeats (encode (.rd .id))) (instanceOf smallChunk).reset))).map
      (fun t => t.rsp) = some [0x00000A0800015648#64] ∧
    decode ⟨0x10000009#64, [1#64]⟩ smallChunk = .ok (.ldnhk 9 1#64) ∧
    decode ⟨0x1000000A#64, [1#64]⟩ smallChunk = .error .field := by decide

/-- 45_hash_pipeline.md R193: the eighth word completes a chunk of 64 bytes, the sixteenth one of 128. -/
theorem test_instance_chunk :
    let c := { inMsg.call with wcnt := 7#8, wheld := true, len := 56#64 }
    ((pushCall smallChunk keysT1 8 0#64 c).wcnt, (pushCall smallChunk keysT1 8 0#64 c).fb) = (0#8, true) ∧
    ((pushCall vhc64 keysT1 8 0#64 c).wcnt, (pushCall vhc64 keysT1 8 0#64 c).fb) = (8#8, false) := by decide

/-! ## The step -/

/-- A packet stored where the step takes its next one runs: RD 4 from reset. -/
theorem test_withFetchWord :
    (after (step (State.reset.withFetchWord 32 0x01000004))).map (fun t => t.rsp) = some [0x0000101000015648#64] := by
  decide

theorem test_decodeTableWord : decodeTableWord 32 0x24000000 = some (.poly 0#64 0#64 0#64 0#64 0#64 0#64) := by
  decide

/-- 30_encoding.md R96: NH and PUSH with `ARG` 0 are E_FIELD (V-ERR11, V-ERR26). -/
theorem test_table_zero_counts : decodeTableWord 32 0x23000000 = none ∧ decodeTableWord 32 0x31000000 = none := by
  decide

/-- The largest quotient of 44_l3.md R182 is `2^63 + 2^31`, not below it (log 15). -/
theorem test_l3_quotient_bound :
    (2 ^ 127 - 2) % (2 ^ 127 - 1) / (2 ^ 64 - 2 ^ 32) = 2 ^ 63 + 2 ^ 31 := by decide

/-! ## Witnesses: each statement with hypotheses has an input that meets them -/

theorem witness_DecodeOfEncode :
    (Instr.ldnhk 15 7#64).wf = true ∧ (Instr.nh (List.replicate 16 1#64)).wf = true ∧ (Instr.nh [1#64, 2#64]).wf = true ∧
    (Instr.push 1 0#64).wf = true ∧ (Instr.push 8 0#64).wf = true := by decide

theorem witness_DecodedCommandEncodesToItsPacket : ∃ p i, decode p = .ok i :=
  ⟨⟨0x1000000F#64, [7#64]⟩, _, rfl⟩

/-- One packet for each clause of the check order. -/
theorem witness_DecodeFollowsTheCheckOrder :
    rowOf 0x40 = none ∧ (rowOf 0x31).isSome ∧
    0x0000000131000003 / 2 ^ 32 ≠ 0 ∧ (rowOf 0x31).map (fun r => r.argRange 9) = some false ∧
    (rowOf 0x31).map (fun r => (r.argRange 8, r.words 8)) = some (true, 1) := by decide

theorem witness_HeaderSelectsOneRow :
    (∃ i, decode ⟨0x31000003#64, [0#64]⟩ = .ok i) ∧
    (∀ o : Opcode, o.code ≠ Packet.opc ⟨0x40000000#64, []⟩) ∧
    (∃ o : Opcode, o.code = Packet.opc ⟨0x20000001#64, []⟩) ∧
    (∀ o : Opcode, o.selects (Packet.header ⟨0x20000001#64, []⟩) = false) :=
  ⟨⟨_, rfl⟩, by intro o; cases o <;> decide, ⟨.mul, by decide⟩, by intro o; cases o <;> decide⟩

/-- A packet of an unknown opcode, with two payload words, and a beat after it. -/
theorem witness_PacketsAreFramedByLast :
    let p : Packet := ⟨0x40000000#64, [1#64, 2#64]⟩
    (present (packetBeats p ++ [.beat 0#64 true]) State.reset).cmdIn = packetBeats p ++ [.beat 0#64 true] ∧
    ∃ t, step (present (packetBeats p ++ [.beat 0#64 true]) State.reset) = .next t := ⟨rfl, _, rfl⟩

/-- Each way the gate lets a command pass: no error, and NOP, RD, CLRERR, ABORT with one. -/
theorem witness_StepRunsDecodedCommand :
    State.reset.err = false ∧ withError.err = true ∧ decode (encode (.mul 2#64 3#64)) = .ok (.mul 2#64 3#64) ∧
    decode (encode .nop) = .ok .nop ∧ decode (encode (.rd .ecmd)) = .ok (.rd .ecmd) ∧
    decode (encode .clrerr) = .ok .clrerr ∧ decode (encode .abort) = .ok .abort ∧
    (presenting (encode .abort) withError).cmdIn = packetBeats (encode .abort) ++ [] := by decide

/-- A command behind the gate, and a malformed packet. -/
theorem witness_GateDiscardsWhileErrorRecorded :
    withError.err = true ∧ decode (encode .final) = .ok .final ∧ decode ⟨0xFF000000#64, []⟩ = .error .opc ∧
    (presenting (encode .final) withError).cmdIn = packetBeats (encode .final) ++ [] := by decide

theorem witness_MalformedPacketRecordsItsError :
    keyed.err = false ∧ decode ⟨0xFF000000#64, []⟩ = .error .opc ∧ decode ⟨0x20000001#64, []⟩ = .error .field ∧
    decode ⟨0x20000000#64, []⟩ = .error .len := by decide

/-- A packet refused by its form, and one refused by its command's rule. -/
theorem witness_RefusedPacketHasNoOtherEffect :
    keyed.err = false ∧
    (after (step (presenting ⟨0xFF000000#64, []⟩ keyed))).map (fun t => t.err) = some true ∧
    (after (step (presenting (encode .final) keyed))).map (fun t => t.err) = some true := by decide

/-- A state for each hypothesis of the state checks. -/
theorem witness_StateChecksRaiseTheirError :
    keyed.err = false ∧ keyed.keys.kv = true ∧ State.reset.err = false ∧ State.reset.keys.kv = false ∧
    0xFFFFFFFFFFFFFEFF ≤ (0xFFFFFFFFFFFFFEFF#64 : Word).toNat ∧
    inMsg.call.phase = .msg ∧ inTail.call.phase = .tail ∧ inMsg.keys.kv = true ∧ inTail.call.phase ≠ .msg ∧
    keyed.call.phase = .idle ∧ inDone.call.phase = .done ∧ inMsg.call.phase ≠ .done := by decide

theorem witness_ClrerrUndoesARefusal :
    keyed.err = false ∧ keyed.ecode = 0#4 ∧ keyed.ecmd = 0#32 ∧
    (after (exec .rdtag keyed)).map (fun t => t.err) = some true := by decide

theorem witness_ErrorStateLeftOnlyByClrerrOrReset :
    withError.err = true ∧ ∃ t, step (presenting (encode .clrerr) withError) = .next t := ⟨rfl, _, rfl⟩

theorem witness_ResponsesAppendInOrder :
    (∃ t, step (presenting (encode (.rd .id)) keyed) = .next t) ∧
    ∀ rest, arrival (presenting (encode (.rd .id)) keyed).cmdIn ≠ .reset rest :=
  ⟨⟨_, rfl⟩, by intro rest h; cases h⟩

/-- No beat before the reset, and two. -/
theorem witness_ResetDropsThePartialPacket :
    (present [.rst] inMsg).cmdIn = ([] : List Word).map (fun d => .beat d false) ++ .rst :: [] ∧
    (present [.beat 1#64 false, .beat 2#64 false, .rst] inMsg).cmdIn =
      [1#64, 2#64].map (fun d => .beat d false) ++ .rst :: [] := ⟨rfl, rfl⟩

theorem witness_IncompletePacketWaits :
    inMsg.cmdIn = ([] : List Word).map (fun d => .beat d false) ∧
    (present [.beat 1#64 false] inMsg).cmdIn = [1#64].map (fun d => .beat d false) := ⟨rfl, rfl⟩

theorem witness_FmaAccumulatesModulo128 : State.reset.rh = 0#64 ∧ State.reset.rl = 0#64 := ⟨rfl, rfl⟩

theorem witness_OnlyUnitCommandsWriteTheResult :
    keyed.err = false ∧ (∃ t, exec (.mul 2#64 3#64) keyed = .next t) ∧ ∃ t, exec .keydone keyed = .next t :=
  ⟨rfl, ⟨_, rfl⟩, ⟨_, rfl⟩⟩

/-- The smallest and the largest count. -/
theorem witness_NhIsTheKeyedSumOfProducts :
    (Instr.nh [1#64, 2#64]).wf = true ∧ (Instr.nh (List.replicate 16 1#64)).wf = true ∧ keyed.keys.kv = true := by
  decide

theorem witness_NhPairOrderIsFree : [1, 0, 2].Perm (List.range 3) := by decide

/-- No word, and a whole chunk. -/
theorem witness_StreamedNhEqualsNh :
    inMsg.call.nhh = 0#64 ∧ inMsg.call.nhl = 0#64 ∧ inMsg.call.wheld = false ∧ inMsg.call.wcnt = 0#8 ∧
    ([] : List Word).length ≤ Config.nhWords ∧ ([] : List Word).length % 2 = 0 ∧
    (List.replicate 16 1#64).length ≤ Config.nhWords ∧ (List.replicate 16 1#64).length % 2 = 0 := by decide

/-- The largest key word and message word of the contract. -/
theorem witness_PolyIsMultiplyAddModuloP127 :
    Config.mpoly &&& ~~~Config.mpoly = 0#64 ∧ Config.m62.toNat ≤ 2 ^ 62 - 1 := by decide

/-- The largest length of the closed form. -/
theorem witness_L3ClosedForm : (0x7FFFFFFFFFFFFFFF#64 : Word).toNat < 2 ^ 63 := by decide

theorem witness_LdnhkWritesOneKeyWord :
    (Instr.ldnhk 0 1#64).wf = true ∧ (Instr.ldnhk 15 1#64).wf = true ∧ State.reset.keys.kv = false := by decide

theorem witness_LdpkAndLdl3kWriteOneHalf :
    State.reset.keys.kv = false ∧ (0xFFFFFFFFFFFFFEFE#64 : Word).toNat < 0xFFFFFFFFFFFFFEFF := by decide

theorem witness_KeydoneLocksAndKeyclrZeroes :
    State.reset.keys.kv = false ∧ keyed.call.phase = .idle ∧ inDone.call.phase = .done := by decide

theorem witness_LockedKeysAreNeverPartlyChanged :
    (presenting (encode .keyclr) keyed).keys.kv = true ∧ ∃ t, step (presenting (encode .keyclr) keyed) = .next t :=
  ⟨rfl, _, rfl⟩

theorem witness_LdkeysLoadsAndLocksTheStore :
    State.reset.err = false ∧ State.reset.keys.kv = false ∧ 0xFFFFFFFFFFFFFEFE#64 < Config.p64 ∧
    0#64 < Config.p64 := by decide

theorem witness_StartSeedsTheCall :
    keyed.keys.kv = true ∧ keyed.call.phase = .idle ∧ inDone.keys.kv = true ∧ inDone.call.phase = .done := by decide

theorem witness_DefaultSeedmixKeepsSeedsApart : seededKey vhc64 keysT1 1#64 = seededKey vhc64 keysT1 1#64 := rfl

theorem witness_MessageWordIsTheByteSum : 0 ≤ 8 ∧ 8 ≤ 8 := by decide

/-- Two beats that differ in the unused lanes only, for one byte and for seven. -/
theorem witness_UnusedLanesHaveNoEffect :
    (Instr.push 1 0xFF01#64).wf = true ∧ (∀ i, i < 1 → laneOf 0xFF01#64 i = laneOf 0x01#64 i) ∧
    (Instr.push 7 0xFF00000000000001#64).wf = true ∧
    (∀ i, i < 7 → laneOf 0xFF00000000000001#64 i = laneOf 0x01#64 i) := by decide

/-- A short beat, a full beat, and a full beat that is the sixteenth word. -/
theorem witness_PushTakesItsBytes :
    (Instr.push 1 0#64).wf = true ∧ (Instr.push 8 0#64).wf = true ∧ inMsg.call.phase = .msg ∧
    inMsg.call.wcnt.toNat + 1 ≠ 16 := by decide

/-- The held word of a pair, and the word that completes it. -/
theorem witness_PushAbsorbsOneWord :
    let one := pushCall vhc64 keysT1 8 7#64 inMsg.call
    inMsg.call.wheld = false ∧ inMsg.call.wcnt.toNat + 1 ≠ 16 ∧
    one.phase = .msg ∧ one.wheld = true ∧ one.wcnt.toNat % 2 = 1 ∧ one.wcnt.toNat + 1 ≠ 16 := by decide

/-- A first chunk about to be complete, and a later one. -/
theorem witness_PushFoldsACompleteChunk :
    let c : Call := { inMsg.call with w0 := 5#64, wheld := true, wcnt := 15#8, len := 120#64 }
    c.phase = .msg ∧ c.wheld = true ∧ c.wcnt = 15#8 ∧ SeededKeyMasked c ∧ c.fb = false ∧
    SeededKeyMasked { c with fb := true } := by decide

/-- No word at all; 15 bytes in TAIL. -/
theorem witness_FinalWithoutAFold :
    (inMsg.call.phase = .msg ∧ inMsg.call.wcnt = 0#8) ∧
    (inTail.call.phase = .tail ∧ inTail.call.wcnt ≠ 0#8 ∧ inTail.call.len.toNat < 16) := by decide

/-- 16 bytes, an even count; 17 bytes, a held word. -/
theorem witness_FinalFoldsTheLastChunk :
    let two := pushCall vhc64 keysT1 8 2#64 (pushCall vhc64 keysT1 8 1#64 inMsg.call)
    let three := pushCall vhc64 keysT1 1 3#64 two
    (two.phase = .msg ∧ two.wcnt ≠ 0#8 ∧ 16 ≤ two.len.toNat ∧ two.wheld = false ∧ SeededKeyMasked two) ∧
    (three.phase = .tail ∧ three.wcnt ≠ 0#8 ∧ 16 ≤ three.len.toNat ∧ three.wheld = true ∧
      three.wcnt.toNat % 2 = 1 ∧ SeededKeyMasked three) := by decide

theorem witness_TagBelowPrimeAfterFinal : inMsg.call.phase = .msg ∧ inTail.call.phase = .tail := by decide

theorem witness_RdtagReturnsTheTagBytes :
    inDone.call.phase = .done ∧ inDone.call.tagw = false ∧
    { inDone.call with tagw := true }.phase = .done := by decide

/-- A change of phase by each command that makes one. -/
theorem witness_PhaseChangesOnlyAsListed :
    (after (exec (.start false false 0#64) keyed)).map (fun t => t.call.phase) = some .msg ∧
    (after (exec (.push 7 0#64) inMsg)).map (fun t => t.call.phase) = some .tail ∧
    (after (exec .abort inMsg)).map (fun t => t.call.phase) = some .idle ∧
    (after (exec .keyclr inDone)).map (fun t => t.call.phase) = some .idle := by decide

theorem witness_PhaseChangesOnlyAsListed_final : ∃ t, exec .final inTail = .next t ∧ t.call.phase ≠ inTail.call.phase :=
  ⟨_, exec_final rfl, by decide⟩

theorem witness_OtherCommandsLeaveCallAndKeys :
    (∃ t, exec (.mul 1#64 1#64) inMsg = .next t) ∧ Opcode.mul ∉ [Opcode.start, .push, .final, .abort, .keyclr] ∧
    Opcode.mul ∉ [Opcode.ldnhk, .ldpk, .ldl3k, .keydone, .keyclr] := ⟨⟨_, rfl⟩, by decide, by decide⟩

/-- Two states that differ outside the key store and the call; two calls that differ. -/
theorem witness_CallsDependOnKeysAndCallAlone :
    inMsg.keys = { inMsg with rh := 1#64 }.keys ∧ inMsg.call = { inMsg with rh := 1#64 }.call ∧
    keyed.keys = inDone.keys ∧ keyed.keys.kv = true ∧ keyed.call.phase.inCall = false ∧
    inDone.call.phase.inCall = false ∧ (∃ t, exec (.start false false 1#64) keyed = .next t) ∧
    ∃ t, exec (.start false false 1#64) inDone = .next t := ⟨rfl, rfl, rfl, rfl, rfl, rfl, ⟨_, rfl⟩, ⟨_, rfl⟩⟩

/-- The longest short messages. -/
theorem witness_ShortTagsDependOnLengthAlone :
    (List.replicate 15 1#8).length = (List.replicate 15 2#8).length ∧ (List.replicate 15 1#8).length < 16 := by decide

theorem witness_StreamedCallEqualsVhash :
    keyed.err = false ∧ keyed.keys.kv = true ∧ keyed.call.phase.inCall = false ∧ inDone.call.phase.inCall = false ∧
    ([] : List Byte).length < 2 ^ 64 ∧ (List.replicate 129 7#8).length < 2 ^ 64 :=
  ⟨rfl, rfl, rfl, rfl, by simp, by simp⟩

/-- START, a multiplication and PUSH: without the multiplication they run without error. -/
theorem witness_InterleavedCommandsLeaveTheCall :
    let cmds : List Instr := [.start false false 0#64, .mul 2#64 3#64, .push 8 1#64]
    (∀ i ∈ cmds, i.opcode ∈ [Opcode.start, .push, .final, .mul, .add128, .fma, .nh, .poly, .l3, .rd, .nop, .clrerr]) ∧
    keyed.err = false ∧ keyed.keys.kv = true ∧
    (after (runCommands (cmds.filter fun i => i.opcode ∈ [Opcode.start, .push, .final]) keyed)).map (fun t => t.err) =
      some false := by decide

theorem witness_EndianSymmetry : ([] : List Byte).length % 8 = 0 ∧ (List.replicate 32 1#8).length % 8 = 0 := by decide

/-- One full chunk; the shortest and the longest message of the second clause. -/
theorem witness_AccumulatorIsAPolynomial :
    1 ≤ 1 ∧ (16 ≤ (List.replicate 16 1#8).length ∧ (List.replicate 16 1#8).length < 128) ∧
    (16 ≤ (List.replicate 127 1#8).length ∧ (List.replicate 127 1#8).length < 128) ∧
    128 ≤ (List.replicate 128 1#8).length ∧ 128 ≤ (List.replicate 129 1#8).length := by decide

/-- The invariant holds outside a call, in MSG and in TAIL. -/
theorem witness_EveryStepKeepsTheInvariant :
    Inv keyed ∧ Inv (presenting (encode (.push 8 1#64)) inMsg) ∧ Inv inTail ∧
    ∃ t, step (presenting (encode (.push 8 1#64)) inMsg) = .next t :=
  ⟨by decide, by decide, by decide, _, rfl⟩

theorem witness_UnlockedImpliesIdle : UnlockedIdle (presenting (encode .keyclr) inDone) ∧
    ∃ t, step (presenting (encode .keyclr) inDone) = .next t :=
  ⟨by decide, _, rfl⟩

theorem witness_EveryStepKeepsTheAccumulatorBound :
    SeededKeyMasked inMsg.call ∧ AccBounded inMsg.call ∧
    ∃ t, step (presenting (encode (.push 8 1#64)) inMsg) = .next t :=
  ⟨by decide, by decide, _, rfl⟩

end Sys2Proof.Tests
end

section
/-! SUPPORT. The state family (10_state.md): what one command and one step can do to the state, and what follows for
the invariant of the machine, the accumulator bound, the responses, the result pair and the key store. -/

namespace Sys2Proof.Machine

open Sys2Proof.Safety

/-! ## Everything a command can do -/

/-- A check either refuses the command, or holds and the command goes on (60_exceptions.md R244). -/
theorem checkOr_next {nk : Nat} {refuse : Bool} {e : ErrCode} {i : Instr} {s t : Sized.State nk} {go : Sized.Result nk}
    (h : checkOr refuse e i s go = .next t) : t = raiseError e (headerWord i) s ∨ refuse = false ∧ go = .next t := by
  cases refuse with
  | false => exact .inr ⟨rfl, h⟩
  | true => cases h; exact .inl rfl

/-- The effects a command can have on a state, with the state checks it has passed. The four commands that write the
unlocked key store share one constructor, and so do the six unit commands. -/
inductive CommandEffect (s : State) : Instr → State → Prop
  | refused {i : Instr} (e : ErrCode) : CommandEffect s i (raiseError e (headerWord i) s)
  | nop : CommandEffect s .nop s
  | rd (sel : RdSel) : CommandEffect s (.rd sel) (respond (readReg vhc64 sel s) s)
  | clrerr : CommandEffect s .clrerr (clearError s)
  | keyWrite {i : Instr} (k : KeyStore) (hi : i.opcode ∈ [Opcode.ldnhk, .ldpk, .ldl3k, .keydone])
      (unlocked : s.keys.kv = false) (range : L3KeysBelowPrime s.keys → L3KeysBelowPrime k) :
      CommandEffect s i { s with keys := k }
  | keyclr (noCall : s.call.phase.inCall = false) :
      CommandEffect s .keyclr (clearCall { s with keys := KeyStore.zero })
  | unit {i : Instr} (r : DWord) (hi : i.opcode ∈ [Opcode.mul, .add128, .fma, .nh, .poly, .l3]) :
      CommandEffect s i (setResult r s)
  | start (be tagw : Bool) (seed : Word) (locked : s.keys.kv = true) (noCall : s.call.phase.inCall = false) :
      CommandEffect s (.start be tagw seed) { s with call := startCall vhc64 s.keys be tagw seed }
  | push (nb : Nat) (beat : Word) (inMsg : s.call.phase = .msg) :
      CommandEffect s (.push nb beat) { s with call := pushCall vhc64 s.keys nb beat s.call }
  | final (inCall : s.call.phase.inCall = true) :
      CommandEffect s .final { s with call := finalCall vhc64 s.keys s.call }
  | abort : CommandEffect s .abort (clearCall s)
  | rdtag (done : s.call.phase = .done) :
      CommandEffect s .rdtag (respond (tagBeat s.call.be s.call.tagw s.call.tag) s)

/-- LDL3K completes only while the store is unlocked and for a word below `p64` (41_key_store.md R143). -/
theorem execLdl3k_effect {half : Half} {w : Word} {s t : State} (h : execLdl3k half w s = .next t) :
    CommandEffect s (.ldl3k half w) t := by
  obtain rfl | ⟨unlocked, h⟩ := checkOr_next h
  · exact .refused _
  obtain rfl | ⟨small, h⟩ := checkOr_next h
  · exact .refused _
  have hw : w < Config.p64 := by simpa using small
  cases half <;> cases h
  · exact .keyWrite _ (by simp [Instr.opcode]) unlocked fun ⟨_, hl⟩ => ⟨hw, hl⟩
  · exact .keyWrite _ (by simp [Instr.opcode]) unlocked fun ⟨hh, _⟩ => ⟨hh, hw⟩

/-- Everything a command can do. -/
theorem exec_effect {i : Instr} {s t : State} (h : exec i s = .next t) : CommandEffect s i t := by
  cases i with
  | nop => cases h; exact .nop
  | rd sel => cases h; exact .rd sel
  | clrerr => cases h; exact .clrerr
  | abort => cases h; exact .abort
  | mul | add128 | fma | poly | l3 => cases h; exact .unit _ (by simp [Instr.opcode])
  | nh =>
    obtain rfl | ⟨-, h⟩ := checkOr_next h
    · exact .refused _
    · cases h; exact .unit _ (by simp [Instr.opcode])
  | ldnhk | keydone =>
    obtain rfl | ⟨unlocked, h⟩ := checkOr_next h
    · exact .refused _
    · cases h; exact .keyWrite _ (by simp [Instr.opcode]) unlocked id
  | ldpk half w =>
    obtain rfl | ⟨unlocked, h⟩ := checkOr_next h
    · exact .refused _
    · cases half <;> cases h <;> exact .keyWrite _ (by simp [Instr.opcode]) unlocked id
  | ldl3k => exact execLdl3k_effect h
  | keyclr =>
    obtain rfl | ⟨noCall, h⟩ := checkOr_next h
    · exact .refused _
    · cases h; exact .keyclr noCall
  | start be tagw seed =>
    obtain rfl | ⟨locked, h⟩ := checkOr_next h
    · exact .refused _
    obtain rfl | ⟨noCall, h⟩ := checkOr_next h
    · exact .refused _
    · cases h; exact .start be tagw seed (by simpa using locked) noCall
  | push nb beat =>
    obtain rfl | ⟨inMsg, h⟩ := checkOr_next h
    · exact .refused _
    · cases h; exact .push nb beat (by simpa using inMsg)
  | final =>
    obtain rfl | ⟨inCall, h⟩ := checkOr_next h
    · exact .refused _
    · cases h; exact .final (by simpa using inCall)
  | rdtag =>
    obtain rfl | ⟨done, h⟩ := checkOr_next h
    · exact .refused _
    · cases h; exact .rdtag (by simpa using done)

/-! ## What every step keeps -/

/-- A property of the registers holds after a step when it holds after reset, whatever is presented, and error entry
and every well-formed command keep it. -/
theorem step_keeps {P : State → Prop} (hinput : ∀ s inp, P s → P { s with cmdIn := inp }) (hreset : P State.reset)
    (hraise : ∀ e hdr s, P s → P (raiseError e hdr s))
    (hexec : ∀ i s t, i.wf = true → P s → CommandEffect s i t → P t)
    {s t : State} (hs : P s) (h : step s = .next t) : P t := by
  obtain ⟨rest, -, rfl⟩ | ⟨inp, rfl⟩ | ⟨e, hdr, inp, -, rfl⟩ | ⟨i, inp, hwf, -, h⟩ := step_cases h
  · exact hinput _ _ hreset
  · exact hinput _ _ hs
  · exact hraise _ _ _ (hinput _ _ hs)
  · exact hexec i _ _ hwf (hinput _ _ hs) (exec_effect h)

/-! ## The seeded key and the tag -/

theorem seededKeyMasked_startCall {nk : Nat} (cfg : Config.Cfg) (k : Sized.KeyStore nk) (be tagw : Bool) (seed : Word) :
    SeededKeyMasked (startCall cfg k be tagw seed) :=
  ⟨and_mpoly_and_not_mpoly _, and_mpoly_and_not_mpoly _⟩

/-- `TAG` is below `p64` whatever goes into the finalizer (44_l3.md R183). -/
theorem l3hash_lt_p64 (p1 p2 k1 k2 len : Word) : l3hash p1 p2 k1 k2 len < Config.p64 := by
  rw [l3hash_eq, BitVec.lt_def, l3MulMod_value, p64_toNat]
  exact Nat.mod_lt _ (by norm_num)

theorem errCodeValue_range (e : ErrCode) : 1 ≤ (errCodeValue e).toNat ∧ (errCodeValue e).toNat ≤ 7 := by
  cases e <;> decide

/-! ## PUSH by the beat it takes -/

/-- A well-formed PUSH is a short beat, a full beat inside a chunk, or the full beat that completes one. -/
theorem pushCall_cases (k : KeyStore) {nb : Nat} (beat : Word) (c : Call) (hnb : nb ≤ 8) :
    (nb < 8 ∧ pushCall vhc64 k nb beat c = setPhase .tail (absorb k (wordOf beat nb c.be) (countBytes nb c))) ∨
    (nb = 8 ∧ c.wcnt.toNat ≠ 15 ∧ pushCall vhc64 k nb beat c = absorb k (wordOf beat nb c.be) (countBytes nb c)) ∨
    (nb = 8 ∧ c.wcnt.toNat = 15 ∧
      pushCall vhc64 k nb beat c = foldChunk vhc64 .full (absorb k (wordOf beat nb c.be) (countBytes nb c))) := by
  obtain hlt | rfl := hnb.lt_or_eq
  · exact .inl ⟨hlt, pushCall_short hlt⟩
  by_cases hc : c.wcnt.toNat = 15
  · exact .inr (.inr ⟨rfl, hc, pushCall_fold hc⟩)
  · exact .inr (.inl ⟨rfl, hc, pushCall_full hc⟩)

theorem push_wf_iff (nb : Nat) (beat : Word) : (Instr.push nb beat).wf = true ↔ 1 ≤ nb ∧ nb ≤ 8 := by
  simp [Instr.wf]

/-! ## The invariant of the machine -/

/-- The part of the invariant that speaks of the per-call registers alone (10_state.md R35, R37, R39). -/
structure CallInv (c : Call) : Prop where
  masked : SeededKeyMasked c
  inCall : c.phase.inCall = true → ChunkInCall c
  noCall : c.phase.inCall = false → ChunkClear c
  tag : TagOk c
  idle : c.phase = .idle → c = Call.zero

theorem inv_iff (s : State) :
    Inv s ↔ L3KeysBelowPrime s.keys ∧ CallInv s.call ∧ ErrorRegsOk s ∧ UnlockedIdle s :=
  ⟨fun ⟨hk, hm, hin, hout, ht, hi, he, hu⟩ => ⟨hk, ⟨hm, hin, hout, ht, hi⟩, he, hu⟩,
    fun ⟨hk, ⟨hm, hin, hout, ht, hi⟩, he, hu⟩ => ⟨hk, hm, hin, hout, ht, hi, he, hu⟩⟩

theorem l3KeysBelowPrime_zero : L3KeysBelowPrime (KeyStore.zero : KeyStore) := by decide

theorem callInv_zero : CallInv Call.zero :=
  ⟨by decide, by decide, by decide, by decide, fun _ => rfl⟩

theorem callInv_startCall (k : KeyStore) (be tagw : Bool) (seed : Word) :
    CallInv (startCall vhc64 k be tagw seed) where
  masked := seededKeyMasked_startCall ..
  inCall := by simp [ChunkInCall]
  noCall := by simp [Phase.inCall]
  tag := by simp [TagOk, Config.p64]
  idle := by simp

/-- Everything FINAL can do, with the tag as a word below `p64` (45_hash_pipeline.md R198, R212). -/
theorem finalCall_tag_lt (cfg : Config.Cfg) (k : KeyStore) (c : Call) :
    ∃ hi lo fb tag, tag < Config.p64 ∧ finalCall cfg k c = { c with
      ah := hi, al := lo, fb := fb, nhh := 0#64, nhl := 0#64, w0 := 0#64, wheld := false, wcnt := 0#8, phase := .done,
      tag := tag } := by
  obtain ⟨hi, lo, fb, heq⟩ := finalCall_cases cfg k c
  exact ⟨hi, lo, fb, _, l3hash_lt_p64 .., heq⟩

theorem callInv_finalCall (k : KeyStore) {c : Call} (hc : CallInv c) : CallInv (finalCall vhc64 k c) := by
  obtain ⟨hi, lo, fb, tag, hlt, heq⟩ := finalCall_tag_lt vhc64 k c
  rw [heq]
  exact {
    masked := hc.masked
    inCall := by simp [Phase.inCall]
    noCall := by simp [ChunkClear]
    tag := ⟨hlt, by simp⟩
    idle := by simp }

/-- Absorbing one word keeps `W0` clear whenever it holds nothing. -/
theorem absorb_w0_clear (k : KeyStore) (w : Word) (c : Call) (h : (absorb k w c).wheld = false) :
    (absorb k w c).w0 = 0#64 := by
  rw [absorb_wheld] at h
  rw [absorb_w0, if_pos (by simpa using h)]

/-- Between beats of MSG, `WCNT` counts the whole words of the current chunk, and the chunk is not full. -/
theorem wcnt_of_msg {c : Call} (hc : ChunkInCall c) (hm : c.phase = .msg) :
    c.len.toNat % 128 = 8 * c.wcnt.toNat ∧ c.wcnt.toNat < 16 := by
  obtain ⟨-, -, -, hcount, -, hlen⟩ := hc
  have h8 := hlen.1 hm
  simp only [nhBytes_eq] at hcount
  omega

/-- The chunk registers after PUSH in MSG: `WCNT` and `LEN` advance together (10_state.md R37; 45_hash_pipeline.md
R193, R194). -/
theorem chunkInCall_pushCall (k : KeyStore) {nb : Nat} (beat : Word) {c : Call} (h1 : 1 ≤ nb) (h8 : nb ≤ 8)
    (hc : ChunkInCall c) (hm : c.phase = .msg) : ChunkInCall (pushCall vhc64 k nb beat c) := by
  obtain ⟨hmod, hlt⟩ := wcnt_of_msg hc hm
  obtain ⟨hheld, -⟩ := hc
  have hwcnt : (c.wcnt + 1#8).toNat = c.wcnt.toNat + 1 := by
    rw [BitVec.toNat_add]; simp; omega
  have hlen : (c.len + BitVec.ofNat 64 nb).toNat % 128 = (8 * c.wcnt.toNat + nb) % 128 := by
    rw [BitVec.toNat_add, BitVec.toNat_ofNat]; omega
  have hparity : (!c.wheld) = decide ((c.wcnt.toNat + 1) % 2 = 1) := by
    rw [hheld, ← decide_not, decide_eq_decide]; omega
  obtain ⟨hshort, heq⟩ | ⟨rfl, hne, heq⟩ | ⟨rfl, hlast, heq⟩ := pushCall_cases k beat c h8 <;> rw [heq]
  · refine ⟨?_, ?_, ?_, ?_, ?_, ?_⟩
    · simpa [hwcnt] using hparity
    · simp [hwcnt]; omega
    · simp
    · simp only [setPhase_wcnt, setPhase_len, absorb_wcnt, absorb_len, countBytes_wcnt, countBytes_len, hwcnt,
        nhBytes_eq, hlen]
      omega
    · exact absorb_w0_clear _ _ _
    · simp only [setPhase_phase, setPhase_len, absorb_len, countBytes_len, reduceCtorEq, false_iff]
      omega
  · refine ⟨?_, ?_, ?_, ?_, ?_, ?_⟩
    · simpa [hwcnt] using hparity
    · simp [hwcnt]; omega
    · simp [hwcnt]; omega
    · simp only [absorb_wcnt, absorb_len, countBytes_wcnt, countBytes_len, hwcnt, nhBytes_eq, hlen]
      omega
    · exact absorb_w0_clear _ _ _
    · simp only [absorb_phase, countBytes_phase, hm, absorb_len, countBytes_len, true_iff]
      omega
  · refine ⟨by simp, by simp, by simp, ?_, by simp, ?_⟩
    · simp only [foldChunk_wcnt, foldChunk_len, absorb_len, countBytes_len, nhBytes_eq, hlen, hlast]
      rfl
    · simp only [foldChunk_phase, foldChunk_len, absorb_phase, countBytes_phase, hm, absorb_len, countBytes_len,
        true_iff]
      omega

theorem pushCall_inCall (k : KeyStore) (nb : Nat) (beat : Word) {c : Call} (hm : c.phase = .msg) :
    (pushCall vhc64 k nb beat c).phase.inCall = true := by
  rw [pushCall_phase, hm]; split <;> rfl

theorem callInv_pushCall (k : KeyStore) {nb : Nat} (beat : Word) {c : Call} (h1 : 1 ≤ nb) (h8 : nb ≤ 8)
    (hc : CallInv c) (hm : c.phase = .msg) : CallInv (pushCall vhc64 k nb beat c) := by
  obtain ⟨hkh, hkl, -, -, htag, -⟩ := pushCall_frame vhc64 k nb beat c
  have hin := pushCall_inCall k nb beat hm
  have hzero : c.tag = 0#64 := hc.tag.2 (by simp [hm])
  exact {
    masked := by rw [SeededKeyMasked, hkh, hkl]; exact hc.masked
    inCall := fun _ => chunkInCall_pushCall k beat h1 h8 (hc.inCall (by rw [hm]; rfl)) hm
    noCall := fun h => by rw [hin] at h; contradiction
    tag := by rw [TagOk, htag, hzero]; exact ⟨by decide, fun _ => rfl⟩
    idle := fun h => by rw [h] at hin; contradiction }

/-- The state after reset meets the invariant. -/
theorem inv_reset : Inv State.reset :=
  (inv_iff _).2 ⟨l3KeysBelowPrime_zero, callInv_zero, ⟨rfl, rfl⟩, fun _ => rfl⟩

/-- Error entry writes a code from 1 to 7 and nothing else that the invariant speaks of (60_exceptions.md R246). -/
theorem inv_raiseError (e : ErrCode) (hdr : BitVec 32) {s : State} (hs : Inv s) : Inv (raiseError e hdr s) := by
  obtain ⟨hk, hc, -, hu⟩ := (inv_iff s).1 hs
  exact (inv_iff _).2 ⟨hk, hc, errCodeValue_range e, hu⟩

/-- Every command keeps the invariant. -/
theorem inv_of_effect {i : Instr} {s t : State} (hwf : i.wf = true) (hs : Inv s) (h : CommandEffect s i t) : Inv t := by
  obtain ⟨hk, hc, he, hu⟩ := (inv_iff s).1 hs
  cases h with
  | refused e => exact inv_raiseError e _ hs
  | nop => exact hs
  | rd | unit | rdtag => exact (inv_iff _).2 ⟨hk, hc, he, hu⟩
  | clrerr => exact (inv_iff _).2 ⟨hk, hc, ⟨rfl, rfl⟩, hu⟩
  | keyWrite k _ unlocked range => exact (inv_iff _).2 ⟨range hk, hc, he, fun _ => hu unlocked⟩
  | keyclr => exact (inv_iff _).2 ⟨l3KeysBelowPrime_zero, callInv_zero, he, fun _ => rfl⟩
  | abort => exact (inv_iff _).2 ⟨hk, callInv_zero, he, fun _ => rfl⟩
  | start be tagw seed locked =>
    exact (inv_iff _).2 ⟨hk, callInv_startCall .., he, fun h => absurd (locked.symm.trans h) (by decide)⟩
  | push nb beat inMsg =>
    obtain ⟨h1, h8⟩ := (push_wf_iff nb beat).1 hwf
    refine (inv_iff _).2 ⟨hk, callInv_pushCall s.keys beat h1 h8 hc inMsg, he, fun h => ?_⟩
    exact absurd (inMsg.symm.trans (hu h)) (by decide)
  | final inCall =>
    refine (inv_iff _).2 ⟨hk, callInv_finalCall s.keys hc, he, fun h => ?_⟩
    rw [hu h] at inCall; contradiction

/-- Settles O57: each part of the invariant is kept by each effect a command can have. -/
theorem everyStepKeepsTheInvariant : Obligations.EveryStepKeepsTheInvariant := by
  unfold Obligations.EveryStepKeepsTheInvariant
  intro s t hs h
  exact step_keeps (P := Inv) (fun _ _ hs => hs) inv_reset (fun e hdr _ => inv_raiseError e hdr)
    (fun _ _ _ => inv_of_effect) hs h

/-- Settles O58. -/
theorem resetMeetsTheInvariant : Obligations.ResetMeetsTheInvariant := inv_reset

/-! ## The accumulator bound -/

/-- The seeded key is masked and the accumulator is below its bound (10_state.md R35, R36). -/
structure AccInv (c : Call) : Prop where
  masked : SeededKeyMasked c
  bounded : AccBounded c

/-- A fold on a masked key gives an accumulator below the bound, in the add form and in the `poly_step` form
(43_poly.md R173; 45_hash_pipeline.md R197). -/
theorem foldedAcc_lt (cfg : Config.Cfg) (kind : FoldKind) (c : Call) (hk : SeededKeyMasked c) :
    pairValue (foldedAcc cfg kind c) < 2 ^ 127 + 2 ^ 126 + 2 ^ 64 := by
  cases hu : useAdd cfg c.fb kind with
  | false => exact (foldedAcc_poly cfg kind c hu hk).2
  | true =>
    rw [foldedAcc_add cfg kind c hu hk.1]
    have := masked_lt hk.1; have := c.spkl.isLt
    omega

theorem accInv_foldChunk (cfg : Config.Cfg) (kind : FoldKind) {c : Call} (hk : SeededKeyMasked c) :
    AccInv (foldChunk cfg kind c) :=
  ⟨hk, foldedAcc_lt cfg kind c hk⟩

theorem accInv_zero : AccInv Call.zero := ⟨by decide, by decide⟩

theorem accInv_startCall (k : KeyStore) (be tagw : Bool) (seed : Word) : AccInv (startCall vhc64 k be tagw seed) := by
  refine ⟨seededKeyMasked_startCall .., ?_⟩
  have := seededKey_fst_lt vhc64 k seed
  have := seededKey_snd_lt vhc64 k seed
  simp only [AccBounded, startCall_ah, startCall_al]
  omega

theorem accInv_absorb (k : KeyStore) (w : Word) {c : Call} (hc : AccInv c) : AccInv (absorb k w c) := by
  obtain ⟨hk, ha⟩ := hc
  exact ⟨by simpa [SeededKeyMasked] using hk, by simpa [AccBounded] using ha⟩

theorem accInv_pushCall (k : KeyStore) {nb : Nat} (beat : Word) {c : Call} (h8 : nb ≤ 8) (hc : AccInv c) :
    AccInv (pushCall vhc64 k nb beat c) := by
  have habs : AccInv (absorb k (wordOf beat nb c.be) (countBytes nb c)) := accInv_absorb k _ ⟨hc.masked, hc.bounded⟩
  obtain ⟨-, heq⟩ | ⟨-, -, heq⟩ | ⟨-, -, heq⟩ := pushCall_cases k beat c h8 <;> rw [heq]
  · exact ⟨habs.masked, habs.bounded⟩
  · exact habs
  · exact accInv_foldChunk _ _ habs.masked

/-- The partial fold of FINAL, with or without the zero word that pads the last pair (45_hash_pipeline.md R198). -/
theorem accInv_foldTail (k : KeyStore) {c : Call} (hk : SeededKeyMasked c) : AccInv (foldTail vhc64 k c) := by
  unfold foldTail
  split <;> exact accInv_foldChunk _ _ hk

theorem accInv_finalCall (k : KeyStore) {c : Call} (hc : AccInv c) : AccInv (finalCall vhc64 k c) := by
  have hfold : AccInv (if 0 < c.wcnt.toNat ∧ skipTail vhc64 c.len = false then foldTail vhc64 k c else c) := by
    split
    · exact accInv_foldTail k hc.masked
    · exact hc
  exact ⟨hfold.masked, hfold.bounded⟩

/-- Every command keeps the accumulator bound: only START, PUSH, FINAL and the clearing commands write the call. -/
theorem accInv_of_effect {i : Instr} {s t : State} (hwf : i.wf = true) (hs : AccInv s.call) (h : CommandEffect s i t) :
    AccInv t.call := by
  cases h with
  | refused | nop | rd | clrerr | keyWrite | unit | rdtag => exact hs
  | keyclr | abort => exact accInv_zero
  | start => exact accInv_startCall ..
  | push nb beat => exact accInv_pushCall s.keys beat ((push_wf_iff nb beat).1 hwf).2 hs
  | final => exact accInv_finalCall s.keys hs

/-- Settles O60: only a fold writes the accumulator inside a call, and a fold on a masked key stays below the bound. -/
theorem everyStepKeepsTheAccumulatorBound : Obligations.EveryStepKeepsTheAccumulatorBound := by
  unfold Obligations.EveryStepKeepsTheAccumulatorBound
  intro s t hk ha h
  have ht : AccInv t.call := step_keeps (P := fun s => AccInv s.call) (fun _ _ hs => hs)
    accInv_zero (fun _ _ _ hs => hs) (fun _ _ _ => accInv_of_effect) ⟨hk, ha⟩ h
  exact ⟨ht.masked, ht.bounded⟩

/-! ## The response sequence -/

/-- A packet leaves the registers as they are, records an error, or runs the command it decodes to. -/
theorem execPacket_cases {p : Packet} {s t : State} (h : execPacket p s = .next t) :
    t = s ∨ (∃ e, t = raiseError e p.header s) ∨ ∃ i, decode p = .ok i ∧ exec i s = .next t := by
  unfold execPacket at h
  split at h
  · split at h <;> cases h
    · exact .inl rfl
    · exact .inr (.inl ⟨_, rfl⟩)
  next i hi =>
    rw [execCommand_eq] at h
    split at h
    · cases h; exact .inl rfl
    · exact .inr (.inr ⟨i, hi, h⟩)

/-- Settles O15: of everything a packet can do, only RD and RDTAG append to `RSP`. -/
theorem responsesAppendInOrder : Obligations.ResponsesAppendInOrder := by
  unfold Obligations.ResponsesAppendInOrder
  intro s t h hreset
  unfold step acceptInput at h
  split at h
  next p rest ha =>
    obtain rfl | ⟨e, rfl⟩ | ⟨i, hi, h⟩ := execPacket_cases h
    · exact .inl rfl
    · exact .inl rfl
    · obtain hsame | ⟨v, happ, hcmd⟩ := exec_rsp h
      · exact .inl hsame
      · exact .inr ⟨v, p, rest, i, happ, ha, hi, hcmd⟩
  next rest ha => exact absurd ha (hreset rest)
  next => cases h; exact .inl rfl

/-! ## The result pair and the key store -/

theorem keyWrite_opcode_not_unit {o : Opcode} (h : o ∈ [Opcode.ldnhk, .ldpk, .ldl3k, .keydone]) :
    o ∉ [Opcode.mul, .add128, .fma, .nh, .poly, .l3] := by
  revert h; cases o <;> decide

/-- Settles O24: the unit commands have no effect but the result, and no other effect is on the result. -/
theorem onlyUnitCommandsWriteTheResult : Obligations.OnlyUnitCommandsWriteTheResult := by
  unfold Obligations.OnlyUnitCommandsWriteTheResult
  intro i s t _ h
  cases exec_effect h with
  | refused e => split <;> simp
  | unit r hi => rw [if_pos hi]; exact .inr rfl
  | keyWrite k hi => rw [if_neg (keyWrite_opcode_not_unit hi)]; exact ⟨rfl, rfl⟩
  | nop | rd | clrerr | keyclr | start | push | final | abort | rdtag =>
    rw [if_neg (by simp [Instr.opcode])]; exact ⟨rfl, rfl⟩

/-- A command on a locked key store leaves it, or is KEYCLR, which zeroes it together with the call
(41_key_store.md R140, R145). -/
theorem locked_keys_of_effect {i : Instr} {s t : State} (locked : s.keys.kv = true) (h : CommandEffect s i t) :
    t.keys = s.keys ∨ (t.keys = State.reset.keys ∧ t.call = State.reset.call) := by
  cases h with
  | refused | nop | rd | clrerr | unit | start | push | final | abort | rdtag => exact .inl rfl
  | keyclr => exact .inr ⟨rfl, rfl⟩
  | keyWrite k _ unlocked => rw [locked] at unlocked; contradiction

/-- Settles O35: the commands that write single key words are refused while the store is locked. -/
theorem lockedKeysAreNeverPartlyChanged : Obligations.LockedKeysAreNeverPartlyChanged := by
  unfold Obligations.LockedKeysAreNeverPartlyChanged
  intro s t locked h
  obtain ⟨rest, -, rfl⟩ | ⟨inp, rfl⟩ | ⟨e, hdr, inp, -, rfl⟩ | ⟨i, inp, -, -, h⟩ := step_cases h
  · exact .inr ⟨rfl, rfl⟩
  · exact .inl rfl
  · exact .inl rfl
  · exact locked_keys_of_effect (s := { s with cmdIn := inp }) locked (exec_effect h)

/-- The low half of a word masked by `mpoly` is below `2^29`. -/
theorem and_mpoly_low_half_lt (x : Word) : (x &&& Config.mpoly).toNat % 2 ^ 32 < 2 ^ 29 := by
  rw [BitVec.toNat_and, Nat.and_mod_two_pow]
  exact lt_of_le_of_lt Nat.and_le_right (by decide)

/-- Settles O38: the mask is the last operation on the seeded key, so the value of `SEEDMIX` does not matter. -/
theorem seededKeyIsMaskedForEverySeedmix : Obligations.SeededKeyIsMaskedForEverySeedmix := by
  unfold Obligations.SeededKeyIsMaskedForEverySeedmix
  intro cfg k be tagw seed
  have hh := seededKey_fst_lt cfg k seed
  have hl := seededKey_snd_lt cfg k seed
  refine ⟨seededKeyMasked_startCall .., hh, hl, and_mpoly_low_half_lt _, and_mpoly_low_half_lt _, ?_, ?_⟩
  · rw [startCall_spkh]; omega
  · rw [startCall_spkl]; omega

/-- Settles O18. -/
theorem resetIsAllZero : Obligations.ResetIsAllZero :=
  ⟨nhkAt_zero, by decide⟩

end Sys2Proof.Machine
end

section
/-! SUPPORT. The memory family (20_memory.md): the framing of packets, the message word of a beat, the unused lanes of
PUSH, and on what the key store and the call depend. -/

namespace Sys2Proof.Machine

/-! ## Framing -/

/-- No packet takes or adds an input: the step has moved past its beats before it is executed. -/
theorem execPacket_cmdIn {p : Packet} {s t : State} (h : execPacket p s = .next t) : t.cmdIn = s.cmdIn := by
  obtain rfl | ⟨e, rfl⟩ | ⟨i, -, h⟩ := execPacket_cases h
  · rfl
  · rfl
  · exact exec_cmdIn h

/-- Settles O6: the beats of a packet arrive as that packet, and executing it leaves the input alone. -/
theorem packetsAreFramedByLast : Obligations.PacketsAreFramedByLast := by
  unfold Obligations.PacketsAreFramedByLast
  intro s p rest hin
  have hstep := step_of_packet hin
  refine ⟨hstep, fun t ht => ?_⟩
  rw [hstep] at ht
  exact execPacket_cmdIn ht

/-! ## The message word -/

theorem wordOf_little (beat : Word) (nb : Nat) : wordOf beat nb false = validLanes beat nb := rfl

theorem wordOf_big (beat : Word) (nb : Nat) : wordOf beat nb true = bswap64 (validLanes beat nb) := rfl

/-- Byte reversal as a number: lane `i` counts as lane `7 − i`. -/
theorem bswap64_toNat (x : Word) :
    (bswap64 x).toNat = ∑ i ∈ Finset.range 8, (laneOf x i).toNat * 2 ^ (8 * (7 - i)) := by
  rw [bswap64, ofLanes_toNat, ← Finset.sum_range_reflect]
  refine Finset.sum_congr rfl fun i hi => ?_
  have hi8 : i < 8 := Finset.mem_range.1 hi
  rw [show 7 - (8 - 1 - i) = i by omega]

/-- A sum over the lanes of a beat with its unused lanes cleared runs over the valid lanes alone. -/
theorem sum_validLanes (beat : Word) {nb : Nat} (h : nb ≤ 8) (weight : Nat → Nat) :
    ∑ i ∈ Finset.range 8, (laneOf (validLanes beat nb) i).toNat * weight i =
      ∑ i ∈ Finset.range nb, beat.toNat / 2 ^ (8 * i) % 2 ^ 8 * weight i := by
  have hvalid : ∀ i ∈ Finset.range nb, beat.toNat / 2 ^ (8 * i) % 2 ^ 8 * weight i =
      (laneOf (validLanes beat nb) i).toNat * weight i := fun i hi => by
    rw [laneOf_validLanes _ _ h, if_pos (Finset.mem_range.1 hi), laneOf_toNat]
  have hunused : ∀ i ∈ Finset.range 8, i ∉ Finset.range nb →
      (laneOf (validLanes beat nb) i).toNat * weight i = 0 := fun i _ hi => by
    rw [laneOf_validLanes _ _ h, if_neg (mt Finset.mem_range.2 hi)]
    exact Nat.zero_mul _
  rw [Finset.sum_congr rfl hvalid, Finset.sum_subset (Finset.range_subset_range.2 h) hunused]

/-- Settles O40: little-endian, the word is the beat modulo its valid bytes; big-endian, byte reversal weighs lane `i`
as lane `7 − i`. -/
theorem messageWordIsTheByteSum : Obligations.MessageWordIsTheByteSum := by
  unfold Obligations.MessageWordIsTheByteSum
  intro beat nb hnb
  constructor
  · rw [wordOf_little, validLanes_toNat _ hnb, mod_eq_sum_bytes]
  · rw [wordOf_big, bswap64_toNat, sum_validLanes _ hnb]

/-! ## Unused lanes -/

theorem validLanes_congr {b₁ b₂ : Word} {nb : Nat} (hnb : nb ≤ 8) (h : ∀ i, i < nb → laneOf b₁ i = laneOf b₂ i) :
    validLanes b₁ nb = validLanes b₂ nb := by
  refine eq_of_lanes fun i _ => ?_
  rw [laneOf_validLanes _ _ hnb, laneOf_validLanes _ _ hnb]
  split
  · next hi => exact h i hi
  · rfl

/-- The message word is a function of the beat with its unused lanes cleared. -/
theorem wordOf_congr {b₁ b₂ : Word} {nb : Nat} (h : validLanes b₁ nb = validLanes b₂ nb) (be : Bool) :
    wordOf b₁ nb be = wordOf b₂ nb be := by
  simp only [wordOf, h]

/-- PUSH reads its beat through the message word alone. -/
theorem pushCall_congr {nk : Nat} (cfg : Config.Cfg) (k : Sized.KeyStore nk) {nb : Nat} {b₁ b₂ : Word} (c : Call)
    (h : wordOf b₁ nb c.be = wordOf b₂ nb c.be) : pushCall cfg k nb b₁ c = pushCall cfg k nb b₂ c := by
  simp only [pushCall, h]

/-- A refused PUSH records its header word, which does not hold the beat (60_exceptions.md R246). -/
theorem headerWord_push (nb : Nat) (b₁ b₂ : Word) : headerWord (.push nb b₁) = headerWord (.push nb b₂) := rfl

/-- PUSH outside MSG is refused (45_hash_pipeline.md R193). -/
theorem exec_push_refused {nb : Nat} {beat : Word} {s : State} (h : s.call.phase ≠ .msg) :
    exec (.push nb beat) s = .next (raiseError .phase (headerWord (.push nb beat)) s) := by
  simp [exec, execPush, checkOr, h]

/-- Settles O41: both outcomes of PUSH, the refused one and the completed one, see the valid lanes only. -/
theorem unusedLanesHaveNoEffect : Obligations.UnusedLanesHaveNoEffect := by
  unfold Obligations.UnusedLanesHaveNoEffect
  intro nb b₁ b₂ s hwf hlanes
  obtain ⟨-, h8⟩ := (push_wf_iff nb b₁).1 hwf
  by_cases hmsg : s.call.phase = .msg
  · have hword := wordOf_congr (validLanes_congr h8 hlanes) s.call.be
    rw [exec_push hmsg, exec_push hmsg, pushCall_congr vhc64 s.keys s.call hword]
  · rw [exec_push_refused hmsg, exec_push_refused hmsg, headerWord_push nb b₁ b₂]

/-! ## Two runs of one command -/

/-- Two states have the same key store and the same per-call registers. -/
structure SameKeysAndCall (s₁ s₂ : State) : Prop where
  keys : s₁.keys = s₂.keys
  call : s₁.call = s₂.call

/-- Whenever two commands complete, their next states have the same key store and per-call registers. -/
def NextStatesAgree (r₁ r₂ : Result) : Prop :=
  ∀ t₁ t₂, r₁ = .next t₁ → r₂ = .next t₂ → SameKeysAndCall t₁ t₂

theorem nextStatesAgree_next {t₁ t₂ : State} (hkeys : t₁.keys = t₂.keys) (hcall : t₁.call = t₂.call) :
    NextStatesAgree (.next t₁) (.next t₂) := by
  intro _ _ h₁ h₂
  cases h₁; cases h₂
  exact ⟨hkeys, hcall⟩

/-- Two runs of one check agree: error entry writes no key and no per-call register (60_exceptions.md R246). -/
theorem nextStatesAgree_checkOr {refuse : Bool} {e : ErrCode} {i : Instr} {s₁ s₂ : State} {go₁ go₂ : Result}
    (hkeys : s₁.keys = s₂.keys) (hcall : s₁.call = s₂.call) (hgo : NextStatesAgree go₁ go₂) :
    NextStatesAgree (checkOr refuse e i s₁ go₁) (checkOr refuse e i s₂ go₂) := by
  cases refuse with
  | false => exact hgo
  | true => exact nextStatesAgree_next hkeys hcall

/-- No command's checks and no command's writes to the key store and the call read anything outside them. -/
theorem exec_nextStatesAgree (i : Instr) {s₁ s₂ : State} (h : SameKeysAndCall s₁ s₂) :
    NextStatesAgree (exec i s₁) (exec i s₂) := by
  obtain ⟨k, c, _⟩ := s₁
  obtain ⟨_, _, _⟩ := s₂
  obtain ⟨rfl, rfl⟩ := h
  cases i with
  | nop | rd | clrerr | mul | add128 | fma | poly | l3 | abort => exact nextStatesAgree_next rfl rfl
  | ldnhk | keydone | keyclr | nh | push | final | rdtag =>
    exact nextStatesAgree_checkOr rfl rfl (nextStatesAgree_next rfl rfl)
  | ldpk half =>
    cases half <;> exact nextStatesAgree_checkOr rfl rfl (nextStatesAgree_next rfl rfl)
  | ldl3k half =>
    cases half <;>
      exact nextStatesAgree_checkOr rfl rfl (nextStatesAgree_checkOr rfl rfl (nextStatesAgree_next rfl rfl))
  | start =>
    exact nextStatesAgree_checkOr rfl rfl (nextStatesAgree_checkOr rfl rfl (nextStatesAgree_next rfl rfl))

/-- START on a locked key store and outside a call completes (45_hash_pipeline.md R191). -/
theorem exec_start {be tagw : Bool} {seed : Word} {s : State} (locked : s.keys.kv = true)
    (noCall : s.call.phase.inCall = false) :
    exec (.start be tagw seed) s = .next { s with call := startCall vhc64 s.keys be tagw seed } := by
  simp [exec, execStart, checkOr, locked, noCall]

/-- Settles O51: two runs of a command agree where the key store and the call agree, and a completed START writes every
per-call register from the key store and its operands. -/
theorem callsDependOnKeysAndCallAlone : Obligations.CallsDependOnKeysAndCallAlone := by
  unfold Obligations.CallsDependOnKeysAndCallAlone
  constructor
  · intro i s₁ s₂ t₁ t₂ hkeys hcall h₁ h₂
    obtain ⟨hkeys', hcall'⟩ := exec_nextStatesAgree i ⟨hkeys, hcall⟩ t₁ t₂ h₁ h₂
    exact ⟨hkeys', hcall'⟩
  · intro be tagw seed s₁ s₂ t₁ t₂ hkeys locked noCall₁ noCall₂ h₁ h₂
    rw [exec_start locked noCall₁] at h₁
    rw [exec_start (hkeys ▸ locked) noCall₂, ← hkeys] at h₂
    cases h₁; cases h₂
    rfl

end Sys2Proof.Machine
end

section
/-! SUPPORT. The encoding family (30_encoding.md): what the decoder answers for each outcome of its four checks, the
encoder and the decoder as inverses, the table of R93 and the match and mask of R99 against the decoder, and the
pseudo-instruction LDKEYS (R98). -/

namespace Sys2Proof.Machine

/-! ## The decoder, one equation for each outcome of its checks (R94) -/

theorem decode_unknown {p : Packet} (h : ∀ o : Opcode, o.code ≠ p.opc) : decode p = .error .opc := by
  have hnone : opcodeOf p.opc = none := by
    cases ho : opcodeOf p.opc with
    | none => rfl
    | some o => exact absurd (code_eq_of_opcodeOf ho) (h o)
  simp only [decode, hnone]

theorem decode_known {p : Packet} {o : Opcode} (ho : o.code = p.opc) :
    decode p =
      if p.rsvh ≠ 0#32 ∨ p.rsv ≠ 0#16 then .error .field
      else if argOk o p.arg.toNat = false then .error .field
      else if p.pay.length ≠ plen o p.arg.toNat then .error .len
      else .ok (build o p.arg p.pay) := by
  have hsome : opcodeOf p.opc = some o := ho ▸ opcodeOf_code o
  simp only [decode, hsome]

section
variable {p : Packet} {o : Opcode} (ho : o.code = p.opc)
include ho

theorem decode_reserved (hr : p.rsvh ≠ 0#32 ∨ p.rsv ≠ 0#16) : decode p = .error .field := by
  rw [decode_known ho, if_pos hr]

theorem decode_argRange (ha : argOk o p.arg.toNat = false) : decode p = .error .field := by
  rw [decode_known ho, if_pos ha, ite_self]

variable (hr : ¬(p.rsvh ≠ 0#32 ∨ p.rsv ≠ 0#16)) (ha : argOk o p.arg.toNat = true)
include hr ha

theorem decode_length (hl : p.pay.length ≠ plen o p.arg.toNat) : decode p = .error .len := by
  rw [decode_known ho, if_neg hr, if_neg (by simp [ha]), if_pos hl]

theorem decode_build (hl : p.pay.length = plen o p.arg.toNat) : decode p = .ok (build o p.arg p.pay) := by
  rw [decode_known ho, if_neg hr, if_neg (by simp [ha]), if_neg (not_not.2 hl)]

end

/-! ## The encoder's fields pass the decoder's checks (R90, R91, R96) -/

theorem startFlags_fields : ∀ be tagw : Bool, (startFlags be tagw).toNat < 4 ∧
    (startFlags be tagw).getLsbD 0 = be ∧ (startFlags be tagw).getLsbD 1 = tagw := by decide

theorem ldnhk_wf_iff (i : Nat) (w : Word) : (Instr.ldnhk i w).wf = true ↔ i < 16 := by simp [Instr.wf]

theorem nh_wf_iff (m : List Word) : (Instr.nh m).wf = true ↔ 2 ≤ m.length ∧ m.length ≤ 16 ∧ m.length % 2 = 0 := by
  simp [Instr.wf]

/-- What a well-formed command is written with passes the checks of R94 and builds the command again; `build_cases` is
the other direction. -/
theorem encoded_fields {i : Instr} (hwf : i.wf = true) :
    argOk i.opcode i.arg.toNat = true ∧ i.payload.length = plen i.opcode i.arg.toNat ∧
      build i.opcode i.arg i.payload = i := by
  cases i with
  | rd sel => cases sel <;> exact ⟨rfl, rfl, rfl⟩
  | ldpk half | ldl3k half => cases half <;> exact ⟨rfl, rfl, rfl⟩
  | start be tagw seed =>
    obtain ⟨hrange, hbe, htagw⟩ := startFlags_fields be tagw
    exact ⟨decide_eq_true hrange, rfl, congrArg₂ (Instr.start · · seed) hbe htagw⟩
  | ldnhk i w =>
    have hi := (ldnhk_wf_iff i w).1 hwf
    have harg : (BitVec.ofNat 8 i).toNat = i := Nat.mod_eq_of_lt (by omega)
    simp [Instr.opcode, Instr.arg, Instr.payload, argOk, plen, build, payWord, harg, hi]
  | push nb beat =>
    have hnb := (push_wf_iff nb beat).1 hwf
    have harg : (BitVec.ofNat 8 nb).toNat = nb := Nat.mod_eq_of_lt (by omega)
    simp [Instr.opcode, Instr.arg, Instr.payload, argOk, plen, build, payWord, harg, hnb]
  | nh m =>
    have hm := (nh_wf_iff m).1 hwf
    have harg : (BitVec.ofNat 8 m.length).toNat = m.length := Nat.mod_eq_of_lt (by omega)
    simp [Instr.opcode, Instr.arg, Instr.payload, argOk, plen, build, harg, hm]
  | nop | clrerr | keydone | keyclr | mul | add128 | fma | poly | l3 | final | abort | rdtag =>
    exact ⟨rfl, rfl, rfl⟩

/-! ## The encoder and the decoder are inverse to each other -/

/-- Settles O1: the header fields read back as they were written, and the command is built from them. -/
theorem decodeOfEncode : Obligations.DecodeOfEncode := by
  unfold Obligations.DecodeOfEncode
  intro i hwf
  obtain ⟨hopc, harg, hrsv, hrsvh⟩ := Laws.EncodedHeader.of_headerOf i
  obtain ⟨hrange, hlen, hbuild⟩ := encoded_fields hwf
  rw [← harg] at hrange hlen hbuild
  rw [decode_build hopc.symm (by simp [hrsv, hrsvh]) hrange hlen]
  exact congrArg Except.ok hbuild

/-- Settles O2: a packet that passes the checks is the header of its opcode and `ARG`, and the command built from it is
written with the same fields. -/
theorem decodedCommandEncodesToItsPacket : Obligations.DecodedCommandEncodesToItsPacket := by
  unfold Obligations.DecodedCommandEncodesToItsPacket
  intro p i h
  obtain ⟨o, ho, hrsvh, hrsv, hrange, hlen, rfl⟩ := decode_ok_cases h
  obtain ⟨hwf, harg, hpay⟩ := build_cases hrange hlen
  refine ⟨hwf, ?_⟩
  rw [encode, headerWord, build_opcode, harg, hpay, ← hdr_eq_headerOf ho hrsv hrsvh]

/-! ## The table of numbers (R93) and the check order (R94) -/

/-- The row of an opcode allows the `ARG` values and asks for the payload length that the decoder checks. -/
theorem rowOf_code (o : Opcode) : ∃ r, rowOf o.code.toNat = some r ∧ r.opc = o.code.toNat ∧
    (∀ a, r.argRange a = argOk o a) ∧ ∀ a, r.words a = plen o a := by
  cases o with
  | rd | ldnhk | ldpk | ldl3k | start =>
    exact ⟨_, rfl, rfl, fun _ => decide_eq_decide.2 Nat.lt_succ_iff.symm, fun _ => rfl⟩
  | nh | push => exact ⟨_, rfl, rfl, fun a => by simp [argOk, Bool.and_assoc, beq_eq_decide], fun _ => rfl⟩
  | nop | clrerr | keydone | keyclr | mul | add128 | fma | poly | l3 | final | abort | rdtag =>
    exact ⟨_, rfl, rfl, fun a => beq_eq_decide a 0, fun _ => rfl⟩

/-- The table has no row beside those of the 19 commands. -/
theorem exists_code_of_rowOf {n : Nat} {r : CommandRow} (h : rowOf n = some r) : ∃ o : Opcode, o.code.toNat = n := by
  have hn : r.opc = n := by simpa using List.find?_some h
  have hmem : n ∈ commandTable.map (·.opc) := hn ▸ List.mem_map_of_mem (List.mem_of_find?_eq_some h)
  rw [show commandTable.map (·.opc) = Opcode.all.map (·.code.toNat) from rfl] at hmem
  obtain ⟨o, -, ho⟩ := List.mem_map.1 hmem
  exact ⟨o, ho⟩

/-- The reserved fields as numbers (R90). -/
theorem reserved_iff (p : Packet) : (p.rsvh ≠ 0#32 ∨ p.rsv ≠ 0#16) ↔
    (p.hdr.toNat / 2 ^ 32 ≠ 0 ∨ p.hdr.toNat / 2 ^ 8 % 2 ^ 16 ≠ 0) := by
  rw [← rsvh_toNat, ← rsv_toNat, ne_eq, ne_eq, BitVec.toNat_eq, BitVec.toNat_eq]
  rfl

/-- Settles O3: a row of the table and its opcode make the same checks, and the decoder answers each of them in turn. -/
theorem decodeFollowsTheCheckOrder : Obligations.DecodeFollowsTheCheckOrder := by
  unfold Obligations.DecodeFollowsTheCheckOrder
  intro p
  rw [← opc_toNat, ← arg_toNat, ← reserved_iff]
  dsimp only
  split
  next hrow =>
    refine decode_unknown fun o ho => ?_
    obtain ⟨r, hr, -⟩ := rowOf_code o
    rw [ho, hrow] at hr
    cases hr
  next r hrow =>
    obtain ⟨o, hcode⟩ := exists_code_of_rowOf hrow
    have ho : o.code = p.opc := BitVec.eq_of_toNat_eq hcode
    obtain ⟨r', hr', hopc, hrange, hwords⟩ := rowOf_code o
    obtain rfl : r' = r := by rw [hcode, hrow] at hr'; exact (Option.some.inj hr').symm
    simp only [hrange, hwords, hopc]
    exact ⟨decode_reserved ho, fun _ => decode_argRange ho, decode_length ho,
      fun hr ha hl => ⟨_, decode_build ho hr ha hl, by rw [build_opcode]⟩⟩

/-! ## Match and mask (R99) -/

/-- The bits of `ARG` that a row's mask compares. -/
def argMask (o : Opcode) : BitVec 8 := o.maskWord.setWidth 8

/-- Every row compares all bits above `ARG`. -/
theorem maskWord_eq (o : Opcode) : o.maskWord = 0xFFFFFF#24 ++ argMask o := by cases o <;> rfl

theorem headerOf_and_maskWord (o o' : Opcode) (a : BitVec 8) :
    headerOf o' a &&& o.maskWord = headerOf o' (a &&& argMask o) := by
  rw [maskWord_eq, headerOf, headerOf, BitVec.and_append, show 0xFFFFFF#24 = BitVec.allOnes 24 from rfl,
    BitVec.and_allOnes]

theorem headerOf_inj {o o' : Opcode} {a a' : BitVec 8} (h : headerOf o a = headerOf o' a') : o = o' ∧ a = a' := by
  have hn := congrArg BitVec.toNat h
  rw [headerOf_toNat, headerOf_toNat] at hn
  have ha := a.isLt
  have ha' := a'.isLt
  exact ⟨code_inj (BitVec.eq_of_toNat_eq (by omega)), BitVec.eq_of_toNat_eq (by omega)⟩

/-- A row selects the headers of its own opcode whose `ARG` is 0 wherever the mask compares it. -/
theorem selects_headerOf_iff (o o' : Opcode) (a : BitVec 8) :
    o.selects (headerOf o' a) = true ↔ o = o' ∧ a &&& argMask o = 0#8 := by
  rw [Opcode.selects, beq_iff_eq, headerOf_and_maskWord, Opcode.matchWord]
  constructor
  · intro h
    obtain ⟨rfl, ha⟩ := headerOf_inj h
    exact ⟨rfl, ha⟩
  · rintro ⟨rfl, ha⟩
    rw [ha]

/-- The mask compares `ARG` only in the rows that allow no `ARG` but 0. -/
theorem and_argMask_of_argOk {o : Opcode} {a : BitVec 8} (h : argOk o a.toNat = true) : a &&& argMask o = 0#8 := by
  cases o with
  | rd | ldnhk | ldpk | ldl3k | nh | start | push => exact BitVec.and_zero
  | nop | clrerr | keydone | keyclr | mul | add128 | fma | poly | l3 | final | abort | rdtag =>
    have ha : a = 0#8 := BitVec.eq_of_toNat_eq (of_decide_eq_true h)
    rw [ha, BitVec.zero_and]

/-- Among the headers with an allowed `ARG` a row selects exactly those of its own opcode. -/
theorem selects_iff_of_argOk {o' : Opcode} {a : BitVec 8} (h : argOk o' a.toNat = true) (o : Opcode) :
    o.selects (headerOf o' a) = true ↔ o = o' := by
  rw [selects_headerOf_iff, and_iff_left_iff_imp]
  rintro rfl
  exact and_argMask_of_argOk h

/-- The low half of a header beat with clear reserved fields. -/
theorem header_eq_headerOf {p : Packet} {o : Opcode} (ho : o.code = p.opc)
    (hr : ¬(p.rsvh ≠ 0#32 ∨ p.rsv ≠ 0#16)) : p.header = headerOf o p.arg := by
  obtain ⟨hrsvh, hrsv⟩ : p.rsvh = 0#32 ∧ p.rsv = 0#16 := by simpa using hr
  rw [header_eq_setWidth, hdr_eq_headerOf ho hrsv hrsvh]
  simp

/-- Settles O4: a header that passes the checks is one that its own row selects, so a header of a known opcode that no
row selects has failed the check of the reserved fields or of `ARG`. -/
theorem headerSelectsOneRow : Obligations.HeaderSelectsOneRow := by
  unfold Obligations.HeaderSelectsOneRow
  intro p
  refine ⟨fun i hi o => ?_, decode_unknown, ?_⟩
  · rw [← decode_ok_headerWord hi]
    exact selects_iff_of_argOk (encoded_fields (decode_ok_wf hi)).1 o
  · rintro ⟨o, ho⟩ hnone
    by_cases hr : p.rsvh ≠ 0#32 ∨ p.rsv ≠ 0#16
    · exact decode_reserved ho hr
    cases ha : argOk o p.arg.toNat with
    | false => exact decode_argRange ho ha
    | true =>
      have hsel := (selects_iff_of_argOk ha o).2 rfl
      rw [← header_eq_headerOf ho hr, hnone o] at hsel
      contradiction

/-- Settles O5. -/
theorem writtenWordsDecode : Obligations.WrittenWordsDecode := by
  unfold Obligations.WrittenWordsDecode
  decide

/-! ## A malformed packet (R94; 60_exceptions.md R246) -/

theorem execPacket_malformed {p : Packet} {e : ErrCode} {s : State} (hp : decode p = .error e) (hs : s.err = false) :
    execPacket p s = .next (raiseError e p.header s) := by
  simp [execPacket, hp, hs]

/-- Settles O9: error entry is the whole effect, and only the first three codes come from the decoder. -/
theorem malformedPacketRecordsItsError : Obligations.MalformedPacketRecordsItsError := by
  unfold Obligations.MalformedPacketRecordsItsError
  intro s p rest e hin hs hp
  have he := decode_error_cases hp
  refine ⟨he, ?_⟩
  rw [step_of_packet hin, execPacket_malformed (s := { s with cmdIn := rest }) hp hs, header_eq_setWidth]
  obtain rfl | rfl | rfl := he <;> rfl

/-! ## LDKEYS (R98) -/

theorem exec_ldnhk {i : Nat} {w : Word} {s : State} (unlocked : s.keys.kv = false) :
    exec (.ldnhk i w) s = .next { s with keys := s.keys.setNhk i w } := by
  simp [exec, execLdnhk, checkOr, unlocked]

theorem exec_ldpk_high {w : Word} {s : State} (unlocked : s.keys.kv = false) :
    exec (.ldpk .high w) s = .next { s with keys := { s.keys with pkh := w } } := by
  simp [exec, execLdpk, checkOr, unlocked]

theorem exec_ldpk_low {w : Word} {s : State} (unlocked : s.keys.kv = false) :
    exec (.ldpk .low w) s = .next { s with keys := { s.keys with pkl := w } } := by
  simp [exec, execLdpk, checkOr, unlocked]

theorem exec_ldl3k_high {w : Word} {s : State} (unlocked : s.keys.kv = false) (hw : w < Config.p64) :
    exec (.ldl3k .high w) s = .next { s with keys := { s.keys with l3kh := w } } := by
  simp [exec, execLdl3k, checkOr, unlocked, hw]

theorem exec_ldl3k_low {w : Word} {s : State} (unlocked : s.keys.kv = false) (hw : w < Config.p64) :
    exec (.ldl3k .low w) s = .next { s with keys := { s.keys with l3kl := w } } := by
  simp [exec, execLdl3k, checkOr, unlocked, hw]

theorem exec_keydone {s : State} (unlocked : s.keys.kv = false) :
    exec .keydone s = .next { s with keys := { s.keys with kv := true } } := by
  simp [exec, execKeydone, checkOr, unlocked]

/-- With no error recorded a run begins with the meaning of its first command. -/
theorem runCommands_cons {i : Instr} {rest : List Instr} {s t : State} (hs : s.err = false) (h : exec i s = .next t) :
    runCommands (i :: rest) s = runCommands rest t := by
  simp [runCommands, execCommand_of_no_error hs, h]

theorem runCommands_append_next {a b : List Instr} {s t : State} (h : runCommands a s = .next t) :
    runCommands (a ++ b) s = runCommands b t := by
  rw [runCommands_append, h]

/-- The key store after the first `n` words of `nhk` have been written into it in order. -/
def loadNhk (nhk : Nat → Word) (k : KeyStore) : Nat → KeyStore
  | 0 => k
  | n + 1 => (loadNhk nhk k n).setNhk n (nhk n)

theorem loadNhk_kv (nhk : Nat → Word) (k : KeyStore) (n : Nat) : (loadNhk nhk k n).kv = k.kv := by
  induction n with
  | zero => rfl
  | succ n ih => rw [loadNhk, setNhk_kv, ih]

theorem nhkAt_loadNhk (nhk : Nat → Word) (k : KeyStore) {n : Nat} (hn : n ≤ 16) {i : Nat} (hi : i < n) :
    (loadNhk nhk k n).nhkAt i = nhk i := by
  induction n with
  | zero => omega
  | succ n ih =>
    rw [loadNhk, nhkAt_setNhk]
    by_cases h : n = i
    · rw [if_pos ⟨h, hn⟩, h]
    · rw [if_neg fun h' => h h'.1, ih (by omega) (by omega)]

/-- The first part of LDKEYS, for any number of words. -/
theorem run_ldnhk (nhk : Nat → Word) {s : State} (hs : s.err = false) (unlocked : s.keys.kv = false) (n : Nat) :
    runCommands ((List.range n).map fun i => .ldnhk i (nhk i)) s = .next { s with keys := loadNhk nhk s.keys n } := by
  induction n with
  | zero => rfl
  | succ n ih =>
    rw [List.range_succ, List.map_append, runCommands_append_next ih]
    exact runCommands_cons hs (exec_ldnhk ((loadNhk_kv ..).trans unlocked))

/-- The second part of LDKEYS: the four single words, then the lock. -/
theorem run_ldpk_ldl3k_keydone {pkh pkl l3h l3l : Word} {s : State} (hs : s.err = false) (unlocked : s.keys.kv = false)
    (hh : l3h < Config.p64) (hl : l3l < Config.p64) :
    runCommands [.ldpk .high pkh, .ldpk .low pkl, .ldl3k .high l3h, .ldl3k .low l3l, .keydone] s =
      .next { s with keys := { nhk := s.keys.nhk, pkh := pkh, pkl := pkl, l3kh := l3h, l3kl := l3l, kv := true } } := by
  simp [runCommands, execCommand_of_no_error, exec_ldpk_high, exec_ldpk_low, exec_ldl3k_high, exec_ldl3k_low,
    exec_keydone, hs, unlocked, hh, hl]

/-- Settles O36: the 16 loads write the NH words one by one and leave the store unlocked, the rest writes the other four
and locks it. -/
theorem ldkeysLoadsAndLocksTheStore : Obligations.LdkeysLoadsAndLocksTheStore := by
  unfold Obligations.LdkeysLoadsAndLocksTheStore
  intro nhk pkh pkl l3h l3l s hs unlocked hh hl
  have hload := run_ldnhk nhk hs unlocked 16
  have hunlocked : (loadNhk nhk s.keys 16).kv = false := (loadNhk_kv ..).trans unlocked
  refine ⟨_, (runCommands_append_next hload).trans (run_ldpk_ldl3k_keydone hs hunlocked hh hl), rfl, ?_,
    rfl, rfl, rfl, rfl, rfl⟩
  exact fun i hi => nhkAt_loadNhk nhk s.keys le_rfl hi

end Sys2Proof.Machine
end

section
/-! SUPPORT. The arithmetic kernel family (40_arith_kernel.md): the range of the product, the words of the sum, and the
unit commands MUL, ADD128 and FMA as exact next states. -/

namespace Sys2Proof.Machine

/-! ## The kernel functions (R120 to R122) -/

/-- The largest product is that of two words of ones (R120). -/
theorem word_mul_word_le (a b : Word) : a.toNat * b.toNat ≤ 2 ^ 128 - 2 ^ 65 + 1 :=
  calc a.toNat * b.toNat ≤ (2 ^ 64 - 1) * (2 ^ 64 - 1) :=
        Nat.mul_le_mul (Nat.le_sub_one_of_lt a.isLt) (Nat.le_sub_one_of_lt b.isLt)
    _ = 2 ^ 128 - 2 ^ 65 + 1 := by norm_num

/-- The high word of a product is never all ones. -/
theorem mul64_fst_toNat_le (a b : Word) : (mul64 a b).1.toNat ≤ 0xFFFFFFFFFFFFFFFE := by
  have hp := word_mul_word_le a b
  rw [mul64_fst_toNat]
  omega

@[simp] theorem add128_snd (aHi aLo bHi bLo : Word) : (add128 aHi aLo bHi bLo).2 = aLo + bLo := rfl

/-- The low words carry into the high word exactly when their wrapped sum is below the first of them. -/
theorem add128_fst (aHi aLo bHi bLo : Word) :
    (add128 aHi aLo bHi bLo).1 = aHi + bHi + (if (aLo + bLo).toNat < aLo.toNat then 1#64 else 0#64) := rfl

/-- Without an accumulator the multiplier gives the product: it is below 2^128, so nothing wraps. -/
theorem mulc_zero (a b : Word) : mulc 0#64 0#64 a b = mul64 a b := by
  refine pairValue_inj ?_
  calc pairValue (mulc 0#64 0#64 a b) = a.toNat * b.toNat % 2 ^ 128 := by simp [mulc_value]
    _ = pairValue (mul64 a b) % 2 ^ 128 := by rw [mul64_value]
    _ = pairValue (mul64 a b) := Nat.mod_eq_of_lt (pairValue_lt _)

/-! ## The commands (R127 to R129) -/

theorem exec_mul (a b : Word) (s : State) :
    exec (.mul a b) s = .next { s with rh := (mul64 a b).1, rl := (mul64 a b).2 } := rfl

theorem exec_add128 (aHi aLo bHi bLo : Word) (s : State) :
    exec (.add128 aHi aLo bHi bLo) s =
      .next { s with rh := (add128 aHi aLo bHi bLo).1, rl := (add128 aHi aLo bHi bLo).2 } := rfl

theorem exec_fma (a b : Word) (s : State) :
    exec (.fma a b) s = .next { s with rh := (mulc s.rh s.rl a b).1, rl := (mulc s.rh s.rl a b).2 } := rfl

/-- Settles O21: the result pair is `mul64`'s, whose two words are the quotient and the remainder of the product. -/
theorem mulGivesTheExactProduct : Obligations.MulGivesTheExactProduct := by
  unfold Obligations.MulGivesTheExactProduct
  intro a b s
  exact ⟨_, _, exec_mul a b s, mul64_value a b, mul64_fst_toNat a b, mul64_snd_toNat a b, word_mul_word_le a b,
    mul64_fst_toNat_le a b⟩

/-- Settles O22: the result pair is `add128`'s. -/
theorem add128WrapsAt128Bits : Obligations.Add128WrapsAt128Bits := by
  unfold Obligations.Add128WrapsAt128Bits
  intro aHi aLo bHi bLo s
  exact ⟨_, _, exec_add128 aHi aLo bHi bLo s, add128_value aHi aLo bHi bLo, add128_snd aHi aLo bHi bLo,
    add128_fst aHi aLo bHi bLo⟩

/-- Settles O23: the result pair is `mulc`'s on the old one, and `mulc` on a zero pair is `mul64`. -/
theorem fmaAccumulatesModulo128 : Obligations.FmaAccumulatesModulo128 := by
  unfold Obligations.FmaAccumulatesModulo128
  intro a b s
  refine ⟨⟨_, _, exec_fma a b s, mulc_value s.rh s.rl a b⟩, fun hrh hrl => ?_⟩
  rw [exec_fma, exec_mul, hrh, hrl, mulc_zero]

end Sys2Proof.Machine
end

section
/-! SUPPORT. The key store family (41_key_store.md): LDL3K's range as a fact about numbers, the phases
outside a call, KEYCLR as an exact next state, and what each of the five key store commands writes. -/

namespace Sys2Proof.Machine

/-! ## What LDL3K and KEYCLR check -/

theorem lt_p64_iff (w : Word) : w < Config.p64 ↔ w.toNat < 0xFFFFFFFFFFFFFEFF := by
  rw [BitVec.lt_def, p64_toNat]; norm_num

/-- `IDLE` and `DONE` are the phases outside a call (10_state.md R23). -/
theorem inCall_eq_false_iff (p : Phase) : p.inCall = false ↔ p = .idle ∨ p = .done := by
  cases p <;> simp [Phase.inCall]

/-! ## The commands (R141 to R145) -/

theorem exec_keyclr {s : State} (noCall : s.call.phase.inCall = false) :
    exec .keyclr s = .next { s with keys := KeyStore.zero, call := Call.zero } := by
  simp [exec, execKeyclr, checkOr, clearCall, noCall]

/-- Settles O32: the write is `setNhk` at an index inside the array, so a read of the index gives the word and a read of
another index what it gave before. -/
theorem ldnhkWritesOneKeyWord : Obligations.LdnhkWritesOneKeyWord := by
  unfold Obligations.LdnhkWritesOneKeyWord
  intro i w s hwf unlocked
  have hi : i < Config.nk := (ldnhk_wf_iff i w).1 hwf
  refine ⟨_, exec_ldnhk unlocked, rfl, ?_, fun j hj => ?_⟩
  · rw [nhkAt_setNhk, if_pos ⟨rfl, hi⟩]
  · rw [nhkAt_setNhk, if_neg fun h => hj h.1.symm]

/-- Settles O33: LDPK needs the open lock alone, LDL3K the range of its word as well. -/
theorem ldpkAndLdl3kWriteOneHalf : Obligations.LdpkAndLdl3kWriteOneHalf := by
  unfold Obligations.LdpkAndLdl3kWriteOneHalf
  intro w s unlocked
  refine ⟨exec_ldpk_high unlocked, exec_ldpk_low unlocked, fun hw => ?_⟩
  have hp : w < Config.p64 := (lt_p64_iff w).2 hw
  exact ⟨exec_ldl3k_high unlocked hp, exec_ldl3k_low unlocked hp⟩

/-- Settles O34: KEYDONE needs the open lock; KEYCLR needs a phase outside a call and leaves the zero key store. -/
theorem keydoneLocksAndKeyclrZeroes : Obligations.KeydoneLocksAndKeyclrZeroes := by
  unfold Obligations.KeydoneLocksAndKeyclrZeroes
  intro s
  refine ⟨exec_keydone, fun hphase => ?_⟩
  have noCall := (inCall_eq_false_iff s.call.phase).2 hphase
  exact ⟨_, exec_keyclr noCall, rfl, nhkAt_zero, rfl, rfl, rfl, rfl, rfl⟩

end Sys2Proof.Machine
end

section
/-! SUPPORT. The NH family (42_nh.md): the loop of R160 as a fold over the pair indices, the freedom of its order, what
the chunk registers hold after each absorbed word, and the command NH as an exact next state. -/

namespace Sys2Proof.Machine

variable {nk : Nat}

/-! ## The loop over the pairs (R160, R165) -/

/-- One iteration of the loop of R160: the product of keyed pair `i` goes on the running total. -/
def addPair (m k : Nat → Word) (t : DWord) (i : Nat) : DWord :=
  mulc t.1 t.2 (m (2 * i) + k (2 * i)) (m (2 * i + 1) + k (2 * i + 1))

theorem nhPairs_eq_foldl (m k : Nat → Word) (n : Nat) :
    nhPairs m k n = (List.range n).foldl (addPair m k) (0#64, 0#64) := by
  induction n with
  | zero => rfl
  | succ n ih => rw [List.range_succ, List.foldl_append, ← ih]; rfl

theorem nh_two_mul (m k : Nat → Word) (n : Nat) : nh m k (2 * n) = nhPairs m k n := by
  rw [nh, Nat.mul_div_cancel_left n (by decide)]

/-- Two accumulations commute: either way the pair is the sum of the total and both products modulo 2^128. -/
theorem mulc_right_comm (t : DWord) (a b c d : Word) :
    mulc (mulc t.1 t.2 a b).1 (mulc t.1 t.2 a b).2 c d = mulc (mulc t.1 t.2 c d).1 (mulc t.1 t.2 c d).2 a b := by
  have twice (a b c d : Word) : pairValue (mulc (mulc t.1 t.2 a b).1 (mulc t.1 t.2 a b).2 c d) =
      (pairValue t + a.toNat * b.toNat + c.toNat * d.toNat) % 2 ^ 128 := by
    rw [mulc_value, ← pairValue, mulc_value, ← pairValue, Nat.mod_add_mod]
  refine pairValue_inj ?_
  rw [twice, twice, Nat.add_right_comm]

theorem addPair_right_comm (m k : Nat → Word) (t : DWord) (i j : Nat) :
    addPair m k (addPair m k t i) j = addPair m k (addPair m k t j) i :=
  mulc_right_comm t _ _ _ _

/-- Settles O26: `nh` is the fold in ascending order, and a fold whose steps commute does not depend on the order. -/
theorem nhPairOrderIsFree : Obligations.NhPairOrderIsFree := by
  unfold Obligations.NhPairOrderIsFree
  intro m k n order horder
  rw [nh_two_mul, nhPairs_eq_foldl]
  exact horder.foldl_eq' (fun i _ j _ t => addPair_right_comm m k t i j) _

/-! ## Streamed evaluation (R166, 45_hash_pipeline.md R194) -/

theorem absorb_first (k : Sized.KeyStore nk) (w : Word) {c : Call} (free : c.wheld = false) :
    absorb k w c = { c with w0 := w, wheld := true, wcnt := c.wcnt + 1#8 } := by
  simp [absorb, free]

theorem absorb_second (k : Sized.KeyStore nk) (w : Word) {c : Call} (held : c.wheld = true) :
    absorb k w c = { c with
      nhh := (absorbPair k w c).1, nhl := (absorbPair k w c).2, w0 := 0#64, wheld := false, wcnt := c.wcnt + 1#8 } := by
  simp [absorb, held]

/-- The chunk registers after the words `m 0` to `m (n − 1)` of a chunk (10_state.md R37): the total of the complete
pairs, the word count, and the last word while its pair is incomplete. -/
structure HoldsWords (k : Sized.KeyStore nk) (m : Nat → Word) (n : Nat) (c : Call) : Prop where
  total : (c.nhh, c.nhl) = nhPairs m k.nhkAt (n / 2)
  wcnt : c.wcnt.toNat = n
  wheld : c.wheld = decide (n % 2 = 1)
  w0 : n % 2 = 1 → c.w0 = m (n - 1)

/-- The pair that the word of odd index `2 * i + 1` completes is pair `i` of the loop of R160. -/
theorem HoldsWords.absorbPair_eq {k : Sized.KeyStore nk} {m : Nat → Word} {i : Nat} {c : Call}
    (h : HoldsWords k m (2 * i + 1) c) :
    absorbPair k (m (2 * i + 1)) c = nhPairs m k.nhkAt (i + 1) := by
  have hprev : (c.wcnt - 1#8).toNat = 2 * i := by
    have := h.wcnt
    bv_omega
  have htotal : (c.nhh, c.nhl) = nhPairs m k.nhkAt i := by
    rw [h.total, show (2 * i + 1) / 2 = i by omega]
  have hw0 : c.w0 = m (2 * i) := h.w0 (by omega)
  rw [absorbPair, hprev, h.wcnt, hw0, nhPairs, ← htotal]

/-- `Absorb` of word `n` of the chunk: an even `n` is held, an odd one completes its pair. -/
theorem HoldsWords.absorb {k : Sized.KeyStore nk} {m : Nat → Word} {n : Nat} {c : Call} (h : HoldsWords k m n c)
    (hn : n < 255) : HoldsWords k m (n + 1) (absorb k (m n) c) := by
  have hwcnt : (c.wcnt + 1#8).toNat = n + 1 := by
    have := h.wcnt
    bv_omega
  obtain ⟨i, rfl | rfl⟩ := Nat.even_or_odd' n
  · have free : c.wheld = false := by rw [h.wheld]; simp
    rw [absorb_first k _ free]
    refine ⟨?_, hwcnt, ?_, fun _ => rfl⟩
    · rw [h.total, show (2 * i + 1) / 2 = 2 * i / 2 by omega]
    · exact (decide_eq_true (by omega)).symm
  · have held : c.wheld = true := by rw [h.wheld]; exact decide_eq_true (by omega)
    rw [absorb_second k _ held]
    refine ⟨?_, hwcnt, ?_, fun hodd => ?_⟩
    · rw [show (2 * i + 1 + 1) / 2 = i + 1 by omega]; exact h.absorbPair_eq
    · exact (decide_eq_false (by omega)).symm
    · omega

theorem holdsWords_zero (k : Sized.KeyStore nk) (m : Nat → Word) {c : Call} (hnhh : c.nhh = 0#64) (hnhl : c.nhl = 0#64)
    (hwheld : c.wheld = false) (hwcnt : c.wcnt = 0#8) : HoldsWords k m 0 c :=
  ⟨by rw [hnhh, hnhl]; rfl, by rw [hwcnt]; rfl, hwheld, fun h => absurd h (by decide)⟩

/-- `WCNT` has eight bits, so the count is right up to 255 words. -/
theorem holdsWords_foldl_range {k : Sized.KeyStore nk} {m : Nat → Word} {c : Call} (h : HoldsWords k m 0 c) {n : Nat}
    (hn : n ≤ 255) : HoldsWords k m n ((List.range n).foldl (fun c i => absorb k (m i) c) c) := by
  induction n with
  | zero => exact h
  | succ n ih =>
    rw [List.range_succ, List.foldl_append]
    exact (ih (by omega)).absorb (by omega)

theorem map_payWord_range (ws : List Word) : (List.range ws.length).map (payWord ws) = ws := by
  refine List.ext_getElem (by simp) fun i _ hi => ?_
  simp [payWord, hi]

theorem holdsWords_foldl {k : Sized.KeyStore nk} {ws : List Word} {c : Call} (h : HoldsWords k (payWord ws) 0 c)
    (hlen : ws.length ≤ 255) : HoldsWords k (payWord ws) ws.length (ws.foldl (fun c w => absorb k w c) c) := by
  have hfold := holdsWords_foldl_range h hlen
  rwa [← List.foldl_map (f := payWord ws) (g := fun c w => absorb k w c), map_payWord_range] at hfold

/-- Settles O27: an empty chunk holds no word, each `Absorb` adds one, and after an even number none waits. -/
theorem streamedNhEqualsNh : Obligations.StreamedNhEqualsNh := by
  unfold Obligations.StreamedNhEqualsNh
  intro k c ws hnhh hnhl hwheld hwcnt hlen heven
  rw [nhWords_eq] at hlen
  obtain ⟨total, wcnt, wheld, -⟩ := holdsWords_foldl (holdsWords_zero k (payWord ws) hnhh hnhl hwheld hwcnt) (by omega)
  exact ⟨total, wcnt, wheld.trans (decide_eq_false (by omega))⟩

/-! ## The command (R167) -/

theorem exec_nh {m : List Word} {s : State} (locked : s.keys.kv = true) :
    exec (.nh m) s = .next { s with
      rh := (nh (payWord m) s.keys.nhkAt m.length).1, rl := (nh (payWord m) s.keys.nhkAt m.length).2 } := by
  simp [exec, execNh, checkOr, setResult, locked]

/-- Settles O25: the result pair is `nh`'s, whose value after all pairs is the sum of R160. -/
theorem nhIsTheKeyedSumOfProducts : Obligations.NhIsTheKeyedSumOfProducts := by
  unfold Obligations.NhIsTheKeyedSumOfProducts
  intro m s _ locked
  exact ⟨_, _, exec_nh locked, nhPairs_value (payWord m) s.keys.nhkAt (m.length / 2)⟩

end Sys2Proof.Machine
end

section
/-! SUPPORT. The POLY family (43_poly.md): the command POLY as an exact next state, and its value under the contract of
R172. -/

namespace Sys2Proof.Machine

/-! ## The command (R175) -/

/-- POLY does not check the contract (R172), so this holds for operands outside it as well (R174). -/
theorem exec_poly (ah al kh kl mh ml : Word) (s : State) :
    exec (.poly ah al kh kl mh ml) s =
      .next { s with rh := (polyStep ah al kh kl mh ml).1, rl := (polyStep ah al kh kl mh ml).2 } := rfl

/-- Settles O28: the meaning of POLY writes the pair of `polyStep` into `R`. -/
theorem polyWritesThePolyStep : Obligations.PolyWritesThePolyStep := by
  unfold Obligations.PolyWritesThePolyStep
  exact exec_poly

/-- Settles O29: the result pair is `polyStep`'s, whose value needs the key words below 2^61; the mask gives that. -/
theorem polyIsMultiplyAddModuloP127 : Obligations.PolyIsMultiplyAddModuloP127 := by
  unfold Obligations.PolyIsMultiplyAddModuloP127
  intro ah al kh kl mh ml s hkh hkl hmh
  obtain ⟨hcongr, hbound⟩ := polyStep_value ah al kh kl mh ml (masked_lt hkh) (masked_lt hkl) hmh
  exact ⟨_, _, exec_poly ah al kh kl mh ml s, hcongr, hbound⟩

end Sys2Proof.Machine
end

section
/-! SUPPORT. The L3 family (44_l3.md): the sum that step 1 of the finalizer reduces, the quotient of step 2, and the
closed form of the tag from the values of the four steps. -/

namespace Sys2Proof.Machine

/-! ## The sum of step 1 (R182) -/

/-- `S` of R182: the accumulator without its bit 127, plus the bit length on the high word, plus that bit on the low
word. -/
def l3Sum (p1 p2 len : Word) : Nat :=
  p1.toNat % 2 ^ 63 * 2 ^ 64 + p2.toNat + len.toNat * 2 ^ 64 + p1.toNat / 2 ^ 63

/-- With a bit length below 2^63 the `add128` of step 1 does not wrap. -/
theorem l3Sum_lt {p1 p2 len : Word} (hlen : len.toNat < 2 ^ 63) : l3Sum p1 p2 len < 2 ^ 128 := by
  have := p1.isLt
  have := p2.isLt
  unfold l3Sum
  omega

/-- Folding bit 127 onto bit 0 keeps the value modulo 2^127 − 1. -/
theorem l3Sum_modEq (p1 p2 len : Word) :
    l3Sum p1 p2 len ≡ p1.toNat * 2 ^ 64 + p2.toNat + len.toNat * 2 ^ 64 [MOD 2 ^ 127 - 1] := by
  have hfold : p1.toNat * 2 ^ 64 + p2.toNat + len.toNat * 2 ^ 64 =
      l3Sum p1 p2 len + (2 ^ 127 - 1) * (p1.toNat / 2 ^ 63) := by
    unfold l3Sum
    omega
  rw [hfold]
  exact Nat.modEq_add_modulus_mul_iff.mpr rfl

/-! ## Steps 1 and 2 together -/

/-- `X` of R182 has 127 bits, so the high word that step 2 starts from is below 2^63. -/
theorem l3Reduce127_fst_lt {p1 p2 len : Word} (hlen : len.toNat < 2 ^ 63) :
    (l3Reduce127 p1 p2 len).1.toNat < 2 ^ 63 := by
  have hX := l3Reduce127_value p1 p2 len hlen
  unfold pairValue at hX
  omega

/-- The quotient and the remainder after step 2 are those of `X` of R182. -/
theorem l3DivMod_l3Reduce127 {p1 p2 len : Word} (hlen : len.toNat < 2 ^ 63) :
    let x := l3Reduce127 p1 p2 len
    (l3DivMod x.1 x.2).1.toNat = l3Sum p1 p2 len % (2 ^ 127 - 1) / (2 ^ 64 - 2 ^ 32) ∧
    (l3DivMod x.1 x.2).2.toNat = l3Sum p1 p2 len % (2 ^ 127 - 1) % (2 ^ 64 - 2 ^ 32) := by
  rw [l3Sum, ← l3Reduce127_value p1 p2 len hlen]
  exact l3DivMod_value _ _ (l3Reduce127_fst_lt hlen)

/-- The bound is reached, see `test_l3_quotient_bound` (log 15). -/
theorem div_d64_le_of_lt {x : Nat} (hx : x < 2 ^ 127 - 1) : x / (2 ^ 64 - 2 ^ 32) ≤ 2 ^ 63 + 2 ^ 31 := by
  omega

/-! ## Steps 3 and 4 together -/

/-- Two halves below 2^64 − 2^32 give the product of the keyed halves modulo `p64`, for every two keys. -/
theorem l3MulMod_l3AddKey {q r : Word} (k1 k2 : Word) (hq : q.toNat < 2 ^ 64 - 2 ^ 32)
    (hr : r.toNat < 2 ^ 64 - 2 ^ 32) :
    (l3MulMod (l3AddKey q k1) (l3AddKey r k2)).toNat =
      (q.toNat + k1.toNat) % (2 ^ 64 - 257) * ((r.toNat + k2.toNat) % (2 ^ 64 - 257)) % (2 ^ 64 - 257) := by
  rw [l3MulMod_value, Nat.mul_mod, l3AddKey_value q k1 hq, l3AddKey_value r k2 hr]

/-! ## The command (R185) -/

/-- Settles O30: the last line of step 4 answers a residue modulo `p64` whatever goes into it. -/
theorem l3ResultIsBelowThePrime : Obligations.L3ResultIsBelowThePrime := by
  unfold Obligations.L3ResultIsBelowThePrime
  intro p1 p2 k1 k2 len s
  have hlt := l3hash_lt_p64 p1 p2 k1 k2 len
  rw [BitVec.lt_def, p64_toNat] at hlt
  exact ⟨_, exec_l3 p1 p2 k1 k2 len s, rfl, hlt⟩

/-- Settles O31: steps 1 and 2 give `q` and `r` of `X`, both in the range for which steps 3 and 4 give the keyed
product; `q` is there by the bound on it and `r` as a remainder. -/
theorem l3ClosedForm : Obligations.L3ClosedForm := by
  unfold Obligations.L3ClosedForm
  intro p1 p2 k1 k2 len s hlen S X q r p
  have hX : X < 2 ^ 127 - 1 := Nat.mod_lt _ (by norm_num)
  have hq : q ≤ 2 ^ 63 + 2 ^ 31 := div_d64_le_of_lt hX
  have hr : r < 2 ^ 64 - 2 ^ 32 := Nat.mod_lt _ (by norm_num)
  refine ⟨l3Sum_lt hlen, l3Sum_modEq p1 p2 len, hq, _, exec_l3 p1 p2 k1 k2 len s, ?_⟩
  obtain ⟨hquot, hrem⟩ := l3DivMod_l3Reduce127 (p1 := p1) (p2 := p2) hlen
  rw [l3hash_eq, l3MulMod_l3AddKey k1 k2 (hquot.trans_lt (hq.trans_lt (by norm_num))) (hrem.trans_lt hr), hquot, hrem]
  rfl

end Sys2Proof.Machine
end

section
/-! SUPPORT. The hash pipeline family (45_hash_pipeline.md): the seeded key, PUSH and FINAL as exact
next states, the tag beat, and what the commands do to the phase, the call and the key store. -/

namespace Sys2Proof.Machine

variable {nk : Nat}

/-! ## START and the seeded key (R191, R192, R210) -/

/-- Settles O37. -/
theorem startSeedsTheCall : Obligations.StartSeedsTheCall := by
  unfold Obligations.StartSeedsTheCall
  intro be tagw seed s locked hphase
  exact exec_start locked ((inCall_eq_false_iff _).2 hphase)

/-- Two words that agree behind one XOR and one mask agree in every bit of the mask. -/
theorem getLsbD_eq_of_masked_xor {p a b m : Word} (h : (p ^^^ a) &&& m = (p ^^^ b) &&& m) {i : Nat}
    (hm : m.getLsbD i = true) : a.getLsbD i = b.getLsbD i := by
  have hbit := congrArg (fun w : Word => w.getLsbD i) h
  simpa [hm] using hbit

/-- The two rotations of R192 leave no bit of the seed uncovered: what `mpoly` drops of the low word it keeps of the
high word, where bit `i` of the seed stands at `i − 24` modulo 64. -/
theorem mpoly_covers : ∀ i < 64,
    Config.mpoly.getLsbD i = true ∨ Config.mpoly.getLsbD ((i + 40) % 64) = true := by decide

theorem getLsbD_rotateRight_24 (a : Word) {i : Nat} (hi : i < 64) :
    (a.rotateRight 24).getLsbD ((i + 40) % 64) = a.getLsbD i := by
  rw [BitVec.getLsbD_rotateRight]
  simp only [cond_eq_ite, decide_eq_true_eq]
  split
  · rw [show 24 % 64 + (i + 40) % 64 = i by omega]
  · rw [show (i + 40) % 64 - (64 - 24 % 64) = i by omega, decide_eq_true (by omega), Bool.true_and]

theorem seededKey_injective {k : Sized.KeyStore nk} {a b : Word} (h : seededKey vhc64 k a = seededKey vhc64 k b) :
    a = b := by
  rw [seededKey_vhc64, seededKey_vhc64] at h
  obtain ⟨hhigh, hlow⟩ := Prod.mk.inj h
  refine BitVec.eq_of_getLsbD_eq fun i hi => ?_
  obtain hm | hm := mpoly_covers i hi
  · exact getLsbD_eq_of_masked_xor hlow hm
  · rw [← getLsbD_rotateRight_24 a hi, ← getLsbD_rotateRight_24 b hi]
    exact getLsbD_eq_of_masked_xor hhigh hm

theorem seedMix_vhc64 (seed : Word) : vhc64.seedMix seed = (seed.rotateRight 24, seed) := by
  simp [seedMix, rotH, rotL, rotr64, BitVec.rotateRight, BitVec.rotateRightAux]

/-- Settles O39: between them the two masked words of the seeded key hold every bit of the seed. -/
theorem defaultSeedmixKeepsSeedsApart : Obligations.DefaultSeedmixKeepsSeedsApart := by
  unfold Obligations.DefaultSeedmixKeepsSeedsApart
  exact ⟨seedMix_vhc64, fun _ _ _ => seededKey_injective⟩

/-! ## PUSH (R193, R194, R197) -/

/-- PUSH that completes no chunk absorbs its word and sets the phase. -/
theorem pushCall_no_fold (k : KeyStore) {nb : Nat} (beat : Word) {c : Call} (hnb : nb ≤ 8)
    (h : nb < 8 ∨ c.wcnt.toNat + 1 ≠ 16) :
    pushCall vhc64 k nb beat c =
      setPhase (if nb < 8 then .tail else c.phase) (absorb k (wordOf beat nb c.be) (countBytes nb c)) := by
  obtain ⟨hshort, heq⟩ | ⟨rfl, -, heq⟩ | ⟨rfl, hlast, -⟩ := pushCall_cases k beat c hnb
  · rw [heq, if_pos hshort]
  · rw [heq, if_neg (by decide), absorb_eq]; rfl
  · omega

/-- Settles O42: the frame of PUSH, and its accumulator when it completes no chunk. -/
theorem pushTakesItsBytes : Obligations.PushTakesItsBytes := by
  unfold Obligations.PushTakesItsBytes
  intro nb beat s hwf hmsg
  obtain ⟨-, h8⟩ := (push_wf_iff nb beat).1 hwf
  obtain ⟨hkh, hkl, hbe, htagw, htag, hlen⟩ := pushCall_frame vhc64 s.keys nb beat s.call
  refine ⟨_, exec_push hmsg, ?_, ?_, hkh, hkl, hbe, htagw, htag, fun h => ?_⟩
  · rw [hlen, BitVec.toNat_add, BitVec.toNat_ofNat, Nat.add_mod_mod]
  · rw [pushCall_phase, hmsg]
  · rw [pushCall_no_fold s.keys beat h8 h]
    simp

/-- Settles O43: `Absorb` of the first and of the second word of a pair. -/
theorem pushAbsorbsOneWord : Obligations.PushAbsorbsOneWord := by
  unfold Obligations.PushAbsorbsOneWord
  intro nb beat s hwf hmsg hchunk w len phase
  obtain ⟨-, h8⟩ := (push_wf_iff nb beat).1 hwf
  rw [exec_push hmsg, pushCall_no_fold s.keys beat h8 hchunk, hmsg]
  refine ⟨fun free => ?_, fun held hodd => ?_⟩
  · rw [absorb_first _ _ (by exact free)]; rfl
  · rw [absorb_second _ _ (by exact held)]
    exact ⟨_, _, rfl, absorbPair_value s.keys w (countBytes nb s.call) (show 0 < s.call.wcnt.toNat by omega)⟩

/-- Masking to 126 bits after the sum modulo 2^128 is masking the sum (R196). -/
theorem mod_two_pow_128_mod_126 (n : Nat) : n % 2 ^ 128 % 2 ^ 126 = n % 2 ^ 126 :=
  Nat.mod_mod_of_dvd n (pow_dvd_pow 2 (by decide))

/-- Settles O44: the 16th word completes the last pair of the chunk, and the fold is the add form without an earlier
fold and `poly_step` after one. -/
theorem pushFoldsACompleteChunk : Obligations.PushFoldsACompleteChunk := by
  unfold Obligations.PushFoldsACompleteChunk
  intro beat s hmsg held hwcnt hk x y N K A
  have h15 : s.call.wcnt.toNat = 15 := by rw [hwcnt]; rfl
  have hpair := absorbPair_value s.keys (wordOf beat 8 s.call.be) (countBytes 8 s.call)
    (show 0 < s.call.wcnt.toNat by omega)
  rw [exec_push hmsg, pushCall_fold h15, absorb_second _ _ (by exact held)]
  generalize absorbPair s.keys (wordOf beat 8 s.call.be) (countBytes 8 s.call) = total at hpair ⊢
  have hN : (total.1.toNat * 2 ^ 64 + total.2.toNat) % 2 ^ 126 = N := by
    rw [← pairValue, hpair, mod_two_pow_128_mod_126, countBytes_wcnt, h15]; rfl
  refine ⟨_, _, rfl, fun hfb => ?_, fun hfb => ?_⟩
  · rw [← hN]
    exact foldedAcc_add _ _ _ (by rw [useAdd_full]; simp [hfb]) hk.1
  · rw [← hN]
    exact foldedAcc_poly _ _ _ (by rw [useAdd_full]; simp [hfb]) hk

/-! ## FINAL (R198 to R201, R212) -/

/-- MSG and TAIL are the phases inside a call (10_state.md R23). -/
theorem inCall_eq_true_iff (p : Phase) : p.inCall = true ↔ p = .msg ∨ p = .tail := by
  cases p <;> simp [Phase.inCall]

/-- FINAL folds nothing for an empty last chunk and, under the normative preset, below 16 message bytes (R199). -/
theorem not_finalFolds_iff (c : Call) :
    ¬(0 < c.wcnt.toNat ∧ skipTail vhc64 c.len = false) ↔ c.wcnt = 0#8 ∨ c.len.toNat < 16 := by
  rw [skipTail_vhc64, decide_eq_false_iff_not, ← BitVec.toNat_inj]
  simp only [BitVec.toNat_ofNat, Nat.zero_mod]
  omega

/-- Settles O45. -/
theorem finalWithoutAFold : Obligations.FinalWithoutAFold := by
  unfold Obligations.FinalWithoutAFold
  intro s hphase hskip
  refine ⟨bitLen vhc64 s.call.len, bitLen_toNat _, ?_⟩
  rw [exec_final ((inCall_eq_true_iff _).2 hphase), finalCall_skip ((not_finalFolds_iff _).2 hskip)]

/-- The NH total of the last chunk: a zero word completes a pair that is half taken (R198; 20_memory.md R73). -/
def paddedTotal (k : Sized.KeyStore nk) (c : Call) : DWord :=
  if c.wheld then absorbPair k 0#64 c else (c.nhh, c.nhl)

/-- The accumulator after the fold of the last chunk (R198, R200). -/
def paddedAcc (k : Sized.KeyStore nk) (c : Call) : DWord :=
  foldedAcc vhc64 .part { c with nhh := (paddedTotal k c).1, nhl := (paddedTotal k c).2 }

theorem foldTail_eq (k : Sized.KeyStore nk) (c : Call) :
    foldTail vhc64 k c = { c with
      ah := (paddedAcc k c).1, al := (paddedAcc k c).2, fb := true, nhh := 0#64, nhl := 0#64, w0 := 0#64,
      wheld := false, wcnt := 0#8 } := by
  unfold foldTail paddedAcc paddedTotal
  split <;> rfl

theorem paddedTotal_value (k : Sized.KeyStore nk) (c : Call) (hodd : c.wheld = true → c.wcnt.toNat % 2 = 1) :
    pairValue (paddedTotal k c) % 2 ^ 126 =
      (c.nhh.toNat * 2 ^ 64 + c.nhl.toNat +
        (if c.wheld then
          (c.w0.toNat + (k.nhkAt (c.wcnt.toNat - 1)).toNat) % 2 ^ 64 * (k.nhkAt c.wcnt.toNat).toNat
        else 0)) % 2 ^ 126 := by
  unfold paddedTotal
  split
  next held =>
    have := hodd held
    rw [absorbPair_value k _ c (by omega), mod_two_pow_128_mod_126, show (0#64).toNat = 0 from rfl, Nat.zero_add,
      Nat.mod_eq_of_lt (k.nhkAt c.wcnt.toNat).isLt]
  next => rw [Nat.add_zero, pairValue_mk]

/-- Settles O46: the fold of the last chunk is in the `poly_step` form whether or not a chunk was folded before. -/
theorem finalFoldsTheLastChunk : Obligations.FinalFoldsTheLastChunk := by
  unfold Obligations.FinalFoldsTheLastChunk
  intro s hphase hwcnt hlen hodd hk x y N K A
  have hfolds : 0 < s.call.wcnt.toNat ∧ skipTail vhc64 s.call.len = false :=
    not_not.1 fun h => ((not_finalFolds_iff _).1 h).elim hwcnt (by omega)
  refine ⟨(paddedAcc s.keys s.call).1, (paddedAcc s.keys s.call).2, bitLen vhc64 s.call.len, bitLen_toNat _, ?_, ?_⟩
  · rw [exec_final ((inCall_eq_true_iff _).2 hphase), finalCall_fold hfolds (foldTail_eq _ _)]
  · rw [show N = _ from (paddedTotal_value s.keys s.call hodd).symm]
    exact foldedAcc_poly vhc64 .part { s.call with
      nhh := (paddedTotal s.keys s.call).1, nhl := (paddedTotal s.keys s.call).2 } (useAdd_part _) hk

/-- Settles O47: with or without a fold, the tag of FINAL comes out of the finalizer. -/
theorem tagBelowPrimeAfterFinal : Obligations.TagBelowPrimeAfterFinal := by
  unfold Obligations.TagBelowPrimeAfterFinal
  intro s hphase
  obtain ⟨hi, lo, fb, tag, hlt, heq⟩ := finalCall_tag_lt vhc64 s.keys s.call
  rw [exec_final ((inCall_eq_true_iff _).2 hphase), heq]
  refine ⟨_, rfl, rfl, rfl, ?_⟩
  rwa [BitVec.lt_def, p64_toNat] at hlt

/-! ## RDTAG (R204) -/

theorem exec_rdtag {s : State} (done : s.call.phase = .done) :
    exec .rdtag s = .next { s with rsp := s.rsp ++ [tagBeat s.call.be s.call.tagw s.call.tag] } := by
  simp [exec, execRdtag, checkOr, respond, done]

theorem laneOf_tagBeat_wide (be : Bool) (tag : Word) {i : Nat} (hi : i < 8) :
    laneOf (tagBeat be false tag) i = laneOf tag (if be then 7 - i else i) := by
  cases be with
  | false => rfl
  | true => exact laneOf_bswap64 tag hi

theorem laneOf_tagBeat_narrow (be : Bool) (tag : Word) {i : Nat} (hi : i < 4) :
    laneOf (tagBeat be true tag) i = laneOf tag (if be then 3 - i else i) := by
  cases be with
  | false => exact (laneOf_setWidth _ i).trans (byte_of_low_half tag hi)
  | true => exact (laneOf_setWidth _ i).trans ((byte_of_bswap32 _ hi).trans (byte_of_low_half tag (by omega)))

theorem laneOf_tagBeat_above (be : Bool) (tag : Word) {i : Nat} (hi : 4 ≤ i) :
    laneOf (tagBeat be true tag) i = 0#8 :=
  (laneOf_setWidth _ i).trans (byte_above_word32 _ hi)

/-- Settles O48. -/
theorem rdtagReturnsTheTagBytes : Obligations.RdtagReturnsTheTagBytes := by
  unfold Obligations.RdtagReturnsTheTagBytes
  intro s done
  refine ⟨_, exec_rdtag done, fun hw i hi => ?_, fun hw => ⟨fun i hi => ?_, fun i h4 _ => ?_⟩⟩ <;> rw [hw]
  · exact laneOf_tagBeat_wide _ _ hi
  · exact laneOf_tagBeat_narrow _ _ hi
  · exact laneOf_tagBeat_above _ _ h4

/-! ## The phase, the call and the key store (R190) -/

/-- Settles O49: the five commands that write the call, each with the phase it checks and the phase it leaves. -/
theorem phaseChangesOnlyAsListed : Obligations.PhaseChangesOnlyAsListed := by
  unfold Obligations.PhaseChangesOnlyAsListed
  intro i s t h hne
  cases exec_effect h with
  | refused | nop | rd | clrerr | keyWrite | unit | rdtag => exact absurd rfl hne
  | start be tagw seed locked noCall =>
    exact .inl ⟨(inCall_eq_false_iff _).1 noCall, locked, rfl, be, tagw, seed, rfl⟩
  | push nb beat inMsg =>
    simp only [pushCall_phase] at hne ⊢
    split at hne
    next hshort => exact .inr (.inl ⟨inMsg, if_pos hshort, nb, beat, hshort, rfl⟩)
    next => exact absurd rfl hne
  | final inCall =>
    exact .inr (.inr (.inl ⟨(inCall_eq_true_iff _).1 inCall, rfl, rfl⟩))
  | abort => exact .inr (.inr (.inr (.inl ⟨rfl, rfl⟩)))
  | keyclr noCall =>
    have done := ((inCall_eq_false_iff _).1 noCall).resolve_left fun hidle => hne hidle.symm
    exact .inr (.inr (.inr (.inr ⟨done, rfl, rfl⟩)))

theorem keyWrite_opcode_mem_keyCommands {o : Opcode} (h : o ∈ [Opcode.ldnhk, .ldpk, .ldl3k, .keydone]) :
    o ∈ [Opcode.ldnhk, .ldpk, .ldl3k, .keydone, .keyclr] := by
  revert h; cases o <;> decide

/-- Settles O50: each effect writes the call, the key store, both or neither. -/
theorem otherCommandsLeaveCallAndKeys : Obligations.OtherCommandsLeaveCallAndKeys := by
  unfold Obligations.OtherCommandsLeaveCallAndKeys
  intro i s t h
  cases exec_effect h with
  | refused | nop | rd | clrerr | unit | rdtag => exact ⟨fun _ => rfl, fun _ => rfl⟩
  | keyWrite k hi => exact ⟨fun _ => rfl, fun hkey => absurd (keyWrite_opcode_mem_keyCommands hi) hkey⟩
  | keyclr => exact ⟨fun hcall => absurd (by decide) hcall, fun hkey => absurd (by decide) hkey⟩
  | start | push | final | abort => exact ⟨fun hcall => absurd (by simp [Instr.opcode]) hcall, fun _ => rfl⟩

end Sys2Proof.Machine
end

section
/-! SUPPORT. The hash pipeline family (45_hash_pipeline.md): a whole call against the function of R205, and the
commands that may stand between the commands of a call (R206). -/

namespace Sys2Proof.Machine

variable {nk : Nat}

/-! ## The message in words (R205; 20_memory.md R67) -/

theorem laneOf_wordAt (be : Bool) (M : List Byte) (j : Nat) {i : Nat} (hi : i < 8) :
    laneOf (wordAt be M j) i = M.getD (8 * j + (if be then 7 - i else i)) 0#8 :=
  laneOf_ofLanes _ hi

theorem laneOf_beatAt (M : List Byte) (j : Nat) {i : Nat} (hi : i < 8) :
    laneOf (beatAt M j) i = M.getD (8 * j + i) 0#8 :=
  laneOf_ofLanes _ hi

/-- A beat that is full, or that holds the last byte of the message, is zero in its unused lanes. -/
theorem validLanes_beatAt {M : List Byte} {j nb : Nat} (h8 : nb ≤ 8) (h : nb = 8 ∨ M.length ≤ 8 * j + nb) :
    validLanes (beatAt M j) nb = beatAt M j := by
  refine eq_of_lanes fun i hi => ?_
  rw [laneOf_validLanes _ _ h8, laneOf_beatAt M j hi]
  split
  · rfl
  · exact (List.getD_eq_default _ _ (by omega)).symm

theorem wordOf_beatAt {M : List Byte} {j nb : Nat} (be : Bool) (h8 : nb ≤ 8)
    (h : nb = 8 ∨ M.length ≤ 8 * j + nb) : wordOf (beatAt M j) nb be = wordAt be M j := by
  rw [wordOf, validLanes_beatAt h8 h]
  cases be with
  | false => rfl
  | true =>
    refine eq_of_lanes fun i hi => ?_
    rw [if_pos rfl, laneOf_bswap64 _ hi, laneOf_beatAt _ _ (by omega), laneOf_wordAt _ _ _ hi, if_pos rfl]

/-- Past the end of the message every word is the number 0 (20_memory.md R73). -/
theorem wordAt_past_end {M : List Byte} {j : Nat} (be : Bool) (h : M.length ≤ 8 * j) : wordAt be M j = 0#64 := by
  refine eq_of_lanes fun i hi => ?_
  rw [laneOf_wordAt _ _ _ hi, List.getD_eq_default _ _ (by omega), ← BitVec.toNat_inj, laneOf_toNat]
  simp

/-! ## A call and the function of R205 -/

/-- The words of chunk `c` of a message. -/
def chunkWord (be : Bool) (M : List Byte) (c i : Nat) : Word := wordAt be M (c * 16 + i)

theorem chunkNh_vhc64 (k : Sized.KeyStore nk) (be : Bool) (M : List Byte) (c nw : Nat) :
    chunkNh vhc64 k be M c nw =
      ((nhPairs (chunkWord be M c) k.nhkAt (nw / 2)).1 &&& Config.m62,
        (nhPairs (chunkWord be M c) k.nhkAt (nw / 2)).2) := rfl

/-- The per-call registers after START with the seeded key `spk` and some of the message `M`: `full` chunks of it are
folded, the chunk registers hold the `nw` words after them, and `LEN` counts `len` bytes (R191 to R197). -/
structure HasTaken (k : Sized.KeyStore nk) (spk : DWord) (be : Bool) (M : List Byte) (full nw len : Nat) (c : Call) :
    Prop where
  words : HoldsWords k (chunkWord be M full) nw c
  key : (c.spkh, c.spkl) = spk
  acc : (c.ah, c.al) = fullChunks vhc64 k be M spk full
  fb : c.fb = decide (full ≠ 0)
  len : c.len = BitVec.ofNat 64 len

namespace HasTaken

variable {k : Sized.KeyStore nk} {spk : DWord} {be : Bool} {M : List Byte} {full nw len : Nat} {c : Call}

theorem setPhase (h : HasTaken k spk be M full nw len c) (p : Phase) :
    HasTaken k spk be M full nw len (setPhase p c) := by
  obtain ⟨⟨htotal, hwcnt, hheld, hw0⟩, hkey, hacc, hfb, hlen⟩ := h
  exact ⟨⟨htotal, hwcnt, hheld, hw0⟩, hkey, hacc, hfb, hlen⟩

/-- PUSH of `nb` bytes, up to the fold: their word joins the chunk and `LEN` counts them. -/
theorem absorb (h : HasTaken k spk be M full nw len c) (hnw : nw < 16) (nb : Nat) :
    HasTaken k spk be M full (nw + 1) (len + nb) (absorb k (chunkWord be M full nw) (countBytes nb c)) := by
  obtain ⟨⟨htotal, hwcnt, hheld, hw0⟩, hkey, hacc, hfb, hlen⟩ := h
  have hwords : HoldsWords k (chunkWord be M full) nw (countBytes nb c) := ⟨htotal, hwcnt, hheld, hw0⟩
  refine ⟨hwords.absorb (by omega), ?_, ?_, ?_, ?_⟩
  · simpa using hkey
  · simpa using hacc
  · simpa using hfb
  · simp [hlen, BitVec.ofNat_add]

/-- The fold of a full chunk is the next step of R205: the add form for the first chunk, `poly_step` for a later one. -/
theorem foldedAcc_full (h : HasTaken k spk be M full 16 len c) :
    foldedAcc vhc64 .full c = fullChunks vhc64 k be M spk (full + 1) := by
  obtain ⟨⟨htotal, -, -, -⟩, rfl, hacc, hfb, -⟩ := h
  rw [fullChunks, ← hacc, vhc64_nhWords, chunkNh_vhc64, ← htotal, foldedAcc, useAdd_full, hfb]
  by_cases hfull : full = 0 <;> simp [hfull]

theorem foldChunk (h : HasTaken k spk be M full 16 len c) :
    HasTaken k spk be M (full + 1) 0 len (foldChunk vhc64 .full c) :=
  ⟨holdsWords_zero _ _ rfl rfl rfl rfl, h.key, h.foldedAcc_full, (decide_eq_true (Nat.succ_ne_zero full)).symm,
    h.len⟩

/-- The padded total of the last chunk is NH of its words, rounded up to whole pairs (R198, R205). -/
theorem paddedTotal_eq (h : HasTaken k spk be M full nw len c) (hend : M.length ≤ 8 * (full * 16 + nw)) :
    paddedTotal k c = nhPairs (chunkWord be M full) k.nhkAt ((nw + 1) / 2) := by
  have hwords := h.words
  rw [paddedTotal, hwords.wheld]
  obtain ⟨i, rfl | rfl⟩ := Nat.even_or_odd' nw
  · rw [if_neg (by simp), hwords.total, show (2 * i + 1) / 2 = 2 * i / 2 by omega]
  · have hpad : chunkWord be M full (2 * i + 1) = 0#64 := wordAt_past_end be hend
    rw [if_pos (decide_eq_true (by omega)), ← hpad, hwords.absorbPair_eq, show (2 * i + 1 + 1) / 2 = i + 1 by omega]

end HasTaken

theorem hasTaken_startCall (k : Sized.KeyStore nk) (be tagw : Bool) (seed : Word) (M : List Byte) :
    HasTaken k (seededKey vhc64 k seed) be M 0 0 0 (startCall vhc64 k be tagw seed) :=
  ⟨holdsWords_zero _ _ rfl rfl rfl rfl, rfl, rfl, rfl, rfl⟩

/-- One more full beat: it joins its chunk and, as the 16th word of it, folds it. -/
theorem HasTaken.push_full {k : Sized.KeyStore nk} {spk : DWord} {be : Bool} {M : List Byte} {n : Nat} {c : Call}
    (h : HasTaken k spk be M (n / 16) (n % 16) (8 * n) c) (hbe : c.be = be) :
    HasTaken k spk be M ((n + 1) / 16) ((n + 1) % 16) (8 * (n + 1)) (pushCall vhc64 k 8 (beatAt M n) c) := by
  have hword : wordOf (beatAt M n) 8 c.be = chunkWord be M (n / 16) (n % 16) := by
    rw [wordOf_beatAt _ le_rfl (.inl rfl), hbe, chunkWord, Nat.div_add_mod']
  have habs := h.absorb (Nat.mod_lt n (by decide)) 8
  have hwcnt := h.words.wcnt
  by_cases hlast : n % 16 = 15
  · rw [pushCall_fold (hwcnt.trans hlast), hword, show (n + 1) / 16 = n / 16 + 1 by omega,
      show (n + 1) % 16 = 0 by omega]
    rw [hlast] at habs ⊢
    exact habs.foldChunk
  · rw [pushCall_full (hwcnt.trans_ne hlast), hword, show (n + 1) / 16 = n / 16 by omega,
      show (n + 1) % 16 = n % 16 + 1 by omega]
    exact habs

/-- The short beat that ends a message. -/
theorem HasTaken.push_short {k : Sized.KeyStore nk} {spk : DWord} {be : Bool} {M : List Byte} {n nb : Nat} {c : Call}
    (h : HasTaken k spk be M (n / 16) (n % 16) (8 * n) c) (hbe : c.be = be) (hnb : nb < 8)
    (hend : M.length ≤ 8 * n + nb) :
    HasTaken k spk be M (n / 16) (n % 16 + 1) (8 * n + nb) (pushCall vhc64 k nb (beatAt M n) c) := by
  have hword : wordOf (beatAt M n) nb c.be = chunkWord be M (n / 16) (n % 16) := by
    rw [wordOf_beatAt _ hnb.le (.inr hend), hbe, chunkWord, Nat.div_add_mod']
  rw [pushCall_short hnb, hword]
  exact (h.absorb (Nat.mod_lt n (by decide)) nb).setPhase _

/-- The full beats of PUSHMSG, any number of them. -/
theorem run_full_beats {s : State} {spk : DWord} (M : List Byte) (hs : s.err = false) (hmsg : s.call.phase = .msg)
    (h : HasTaken s.keys spk s.call.be M 0 0 0 s.call) (n : Nat) :
    ∃ c, runCommands ((List.range n).map fun j => .push 8 (beatAt M j)) s = .next { s with call := c } ∧
      HasTaken s.keys spk s.call.be M (n / 16) (n % 16) (8 * n) c ∧ c.phase = .msg ∧ c.be = s.call.be ∧
      c.tagw = s.call.tagw := by
  induction n with
  | zero => exact ⟨s.call, rfl, h, hmsg, rfl, rfl⟩
  | succ n ih =>
    obtain ⟨c, hrun, htaken, hphase, hbe, htagw⟩ := ih
    obtain ⟨-, -, hbe', htagw', -, -⟩ := pushCall_frame vhc64 s.keys 8 (beatAt M n) c
    refine ⟨_, ?_, htaken.push_full hbe, ?_, hbe'.trans hbe, htagw'.trans htagw⟩
    · rw [List.range_succ, List.map_append, runCommands_append_next hrun]
      exact runCommands_cons hs (exec_push (by exact hphase))
    · rw [pushCall_phase, if_neg (by decide), hphase]

/-- PUSHMSG takes the whole message: its full chunks are folded, and the chunk registers hold the words of the rest. -/
theorem run_pushMsg {s : State} {spk : DWord} (M : List Byte) (hs : s.err = false) (hmsg : s.call.phase = .msg)
    (h : HasTaken s.keys spk s.call.be M 0 0 0 s.call) :
    ∃ c, runCommands (pushMsg M) s = .next { s with call := c } ∧
      HasTaken s.keys spk s.call.be M (M.length / 128) ((M.length % 128 + 7) / 8) M.length c ∧
      c.phase.inCall = true ∧ c.be = s.call.be ∧ c.tagw = s.call.tagw := by
  obtain ⟨c, hrun, htaken, hphase, hbe, htagw⟩ := run_full_beats M hs hmsg h (M.length / 8)
  have hfull : M.length / 8 / 16 = M.length / 128 := by omega
  unfold pushMsg
  rw [runCommands_append_next hrun]
  split
  next hshort =>
    obtain ⟨-, -, hbe', htagw', -, -⟩ := pushCall_frame vhc64 s.keys (M.length % 8) (beatAt M (M.length / 8)) c
    have htaken' := htaken.push_short (nb := M.length % 8) hbe (Nat.mod_lt _ (by decide)) (by omega)
    rw [hfull, Nat.div_add_mod, show M.length / 8 % 16 + 1 = (M.length % 128 + 7) / 8 by omega] at htaken'
    exact ⟨_, runCommands_cons hs (exec_push (by exact hphase)), htaken', pushCall_inCall _ _ _ hphase,
      hbe'.trans hbe, htagw'.trans htagw⟩
  next hwhole =>
    rw [hfull, show 8 * (M.length / 8) = M.length by omega,
      show M.length / 8 % 16 = (M.length % 128 + 7) / 8 by omega] at htaken
    exact ⟨c, rfl, htaken, by rw [hphase]; rfl, hbe, htagw⟩

/-- The finalizer gets the full chunks alone when no byte follows them, and for a skipped message (R199, R205). -/
theorem vhashAcc_no_fold (k : Sized.KeyStore nk) {M : List Byte} (seed : Word) (be : Bool)
    (h : M.length % 128 = 0 ∨ M.length < 16) :
    vhashAcc vhc64 k M seed be = fullChunks vhc64 k be M (seededKey vhc64 k seed) (M.length / 128) := by
  have hcond : ¬(0 < M.length % 128 ∧ ¬(vhc64.shortSkip = true ∧ M.length < 16)) := fun ⟨hrem, hskip⟩ =>
    hskip ⟨rfl, h.resolve_left hrem.ne'⟩
  exact if_neg hcond

/-- One fold in the `poly_step` form: the accumulator `a` and the masked NH pair `h` at the seeded key `spk` (R197). -/
def polyFold (spk a h : DWord) : DWord := polyStep a.1 a.2 spk.1 spk.2 h.1 h.2

/-- The last chunk is folded in the `poly_step` form, its words rounded up to whole pairs (R200, R205). -/
theorem vhashAcc_fold (k : Sized.KeyStore nk) {M : List Byte} (seed : Word) (be : Bool)
    (hrem : 0 < M.length % 128) (h16 : 16 ≤ M.length) :
    vhashAcc vhc64 k M seed be =
      polyFold (seededKey vhc64 k seed) (fullChunks vhc64 k be M (seededKey vhc64 k seed) (M.length / 128))
        (chunkNh vhc64 k be M (M.length / 128) (2 * ((M.length % 128 + 15) / 16))) := by
  have hcond : 0 < M.length % 128 ∧ ¬(vhc64.shortSkip = true ∧ M.length < 16) := ⟨hrem, fun h => by omega⟩
  exact (if_pos hcond).trans (if_neg fun h => absurd h.2 (by decide))

/-- The fold of FINAL after the whole message is the last fold of R205. -/
theorem HasTaken.paddedAcc_eq {k : Sized.KeyStore nk} {seed : Word} {be : Bool} {M : List Byte} {c : Call}
    (h : HasTaken k (seededKey vhc64 k seed) be M (M.length / 128) ((M.length % 128 + 7) / 8) M.length c)
    (hrem : 0 < M.length % 128) (h16 : 16 ≤ M.length) : paddedAcc k c = vhashAcc vhc64 k M seed be := by
  have hpairs : 2 * ((M.length % 128 + 15) / 16) / 2 = ((M.length % 128 + 7) / 8 + 1) / 2 := by omega
  rw [vhashAcc_fold k seed be hrem h16, ← h.acc, ← h.key, chunkNh_vhc64, hpairs, ← h.paddedTotal_eq (by omega)]
  unfold paddedAcc foldedAcc
  rw [useAdd_part]
  rfl

/-- FINAL after the whole message gives the finalizer what `vhashAcc` says (R198, R205). -/
theorem HasTaken.finalCall_tag {k : Sized.KeyStore nk} {seed : Word} {be : Bool} {M : List Byte} {c : Call}
    (h : HasTaken k (seededKey vhc64 k seed) be M (M.length / 128) ((M.length % 128 + 7) / 8) M.length c)
    (hlen : M.length < 2 ^ 64) : (finalCall vhc64 k c).tag = vhash vhc64 k M seed be := by
  have hlenNat : c.len.toNat = M.length := by rw [h.len, BitVec.toNat_ofNat, Nat.mod_eq_of_lt hlen]
  have hfolds : (0 < c.wcnt.toNat ∧ skipTail vhc64 c.len = false) ↔ 0 < M.length % 128 ∧ 16 ≤ M.length := by
    rw [h.words.wcnt, skipTail_vhc64, hlenNat, decide_eq_false_iff_not]
    omega
  rw [vhash, ← h.len]
  by_cases hfold : 0 < M.length % 128 ∧ 16 ≤ M.length
  · obtain ⟨hrem, h16⟩ := hfold
    rw [finalCall_fold (hfolds.2 ⟨hrem, h16⟩) (foldTail_eq k c), h.paddedAcc_eq hrem h16]
  · rw [finalCall_skip (mt hfolds.1 hfold), vhashAcc_no_fold k seed be (by omega), ← h.acc]

/-- Settles O53: PUSHMSG leaves the registers that R205 describes, and FINAL forms the tag from them. -/
theorem streamedCallEqualsVhash : Obligations.StreamedCallEqualsVhash := by
  unfold Obligations.StreamedCallEqualsVhash
  intro s be tagw seed M hs locked noCall hlen
  obtain ⟨c, hrun, htaken, hcall, hbe, htagw⟩ :=
    run_pushMsg (s := { s with call := startCall vhc64 s.keys be tagw seed }) M hs rfl
      (hasTaken_startCall s.keys be tagw seed M)
  have htag := htaken.finalCall_tag hlen
  have hlenNat : c.len.toNat = M.length := by rw [htaken.len, BitVec.toNat_ofNat, Nat.mod_eq_of_lt hlen]
  refine ⟨finalCall vhc64 s.keys c, ?_, htag, ?_⟩
  · rw [tagCommands, runCommands_cons hs (exec_start locked noCall), runCommands_append_next hrun]
    exact runCommands_cons hs (exec_final (by exact hcall))
  · obtain ⟨hi, lo, fb, heq⟩ := finalCall_cases vhc64 s.keys c
    rw [heq]
    exact ⟨rfl, hbe, htagw, hlenNat⟩

/-! ## Commands between the commands of a call (R206) -/

theorem callCommand_opcode {o : Opcode} (h : o ∈ [Opcode.start, .push, .final]) :
    o ∉ [Opcode.ldnhk, .ldpk, .ldl3k, .keydone] ∧ o ∉ [Opcode.mul, .add128, .fma, .nh, .poly, .l3] := by
  revert h; cases o <;> decide

/-- START, PUSH and FINAL, once completed without an error, write the call alone and read nothing but the key store and
the call: they complete in every state that has the same two. -/
theorem exec_callCommand {i : Instr} {s t s' : State} (hi : i.opcode ∈ [Opcode.start, .push, .final])
    (h : exec i s = .next t) (ht : t.err = false) (same : SameKeysAndCall s s') :
    t.keys = s.keys ∧ exec i s' = .next { s' with call := t.call } := by
  obtain ⟨hkeys, hcall⟩ := same
  cases exec_effect h with
  | refused e => exact absurd ht (by simp)
  | start be tagw seed locked noCall =>
    exact ⟨rfl, by rw [exec_start (hkeys ▸ locked) (hcall ▸ noCall), hkeys]⟩
  | push nb beat inMsg => exact ⟨rfl, by rw [exec_push (hcall ▸ inMsg), hkeys, hcall]⟩
  | final inCall => exact ⟨rfl, by rw [exec_final (hcall ▸ inCall), hkeys, hcall]⟩
  | keyWrite k hk => exact absurd hk (callCommand_opcode hi).1
  | unit r hu => exact absurd hu (callCommand_opcode hi).2
  | nop | rd | clrerr | keyclr | abort | rdtag => exact absurd hi (by simp [Instr.opcode])

/-- Unit commands, RD, NOP and CLRERR on a locked key store complete without an error and leave the key store and the
call. -/
theorem exec_sideCommand {i : Instr} {s : State}
    (hi : i.opcode ∈ [Opcode.mul, .add128, .fma, .nh, .poly, .l3, .rd, .nop, .clrerr])
    (hs : s.err = false) (locked : s.keys.kv = true) :
    ∃ t, exec i s = .next t ∧ SameKeysAndCall s t ∧ t.err = false := by
  cases i with
  | nop | rd | mul | add128 | fma | poly => exact ⟨_, rfl, ⟨rfl, rfl⟩, hs⟩
  | l3 => exact ⟨_, exec_l3 .., ⟨rfl, rfl⟩, hs⟩
  | nh => exact ⟨_, exec_nh locked, ⟨rfl, rfl⟩, hs⟩
  | clrerr => exact ⟨_, rfl, ⟨rfl, rfl⟩, rfl⟩
  | ldnhk | ldpk | ldl3k | keydone | keyclr | start | push | final | abort | rdtag =>
    exact absurd hi (by simp [Instr.opcode])

theorem passesGate_callCommand {i : Instr} (hi : i.opcode ∈ [Opcode.start, .push, .final]) : passesGate i = false := by
  cases i with
  | start | push | final => rfl
  | nop | rd | clrerr | ldnhk | ldpk | ldl3k | keydone | keyclr | mul | add128 | fma | nh | poly | l3 | abort | rdtag =>
    exact absurd hi (by simp [Instr.opcode])

/-- START, PUSH and FINAL are discarded while an error is recorded (60_exceptions.md R245). -/
theorem run_callCommands_of_error {cmds : List Instr} {s : State}
    (hcmds : ∀ i ∈ cmds, i.opcode ∈ [Opcode.start, .push, .final]) (hs : s.err = true) :
    runCommands cmds s = .next s := by
  induction cmds with
  | nil => rfl
  | cons i rest ih =>
    have hgate := passesGate_callCommand (hcmds i List.mem_cons_self)
    simp only [runCommands, execCommand, hs, hgate, Bool.not_false, Bool.and_self, if_true]
    exact ih fun j hj => hcmds j (List.mem_cons_of_mem i hj)

/-- The list with the other commands in it, run from a state with the same key store and call. -/
theorem run_interleaved {cmds : List Instr} {s s' t : State}
    (hcmds : ∀ i ∈ cmds,
      i.opcode ∈ [Opcode.start, .push, .final, .mul, .add128, .fma, .nh, .poly, .l3, .rd, .nop, .clrerr])
    (same : SameKeysAndCall s s') (hs : s.err = false) (hs' : s'.err = false) (locked : s.keys.kv = true)
    (hrun : runCommands (cmds.filter fun i => i.opcode ∈ [Opcode.start, .push, .final]) s = .next t)
    (ht : t.err = false) :
    ∃ u, runCommands cmds s' = .next u ∧ SameKeysAndCall t u ∧ u.err = false := by
  induction cmds generalizing s s' with
  | nil => cases hrun; exact ⟨s', rfl, same, hs'⟩
  | cons i rest ih =>
    have hrest := fun j hj => hcmds j (List.mem_cons_of_mem i hj)
    by_cases hi : i.opcode ∈ [Opcode.start, .push, .final]
    · rw [List.filter_cons_of_pos (by simpa using hi)] at hrun
      obtain ⟨s₁, h⟩ := exec_next i s
      rw [runCommands_cons hs h] at hrun
      have hs₁ : s₁.err = false := by
        by_contra herr
        have hfilter : ∀ j ∈ rest.filter fun i => i.opcode ∈ [Opcode.start, .push, .final],
            j.opcode ∈ [Opcode.start, .push, .final] := fun j hj => by simpa using List.of_mem_filter hj
        rw [run_callCommands_of_error hfilter (by simpa using herr)] at hrun
        cases hrun
        exact herr ht
      obtain ⟨hkeys, h'⟩ := exec_callCommand hi h hs₁ same
      rw [runCommands_cons hs' h']
      exact ih hrest ⟨hkeys.trans same.keys, rfl⟩ hs₁ hs' (hkeys ▸ locked) hrun
    · rw [List.filter_cons_of_neg (by simpa using hi)] at hrun
      have hside := (List.mem_append (s := [Opcode.start, .push, .final])).1 (hcmds i List.mem_cons_self)
      obtain ⟨s₁', h', same', hs₁'⟩ := exec_sideCommand (hside.resolve_left hi) hs' (same.keys ▸ locked)
      rw [runCommands_cons hs' h']
      exact ih hrest ⟨same.keys.trans same'.keys, same.call.trans same'.call⟩ hs hs₁' locked hrun

/-- Settles O54. -/
theorem interleavedCommandsLeaveTheCall : Obligations.InterleavedCommandsLeaveTheCall := by
  unfold Obligations.InterleavedCommandsLeaveTheCall
  intro cmds s t hcmds hs locked hrun ht
  obtain ⟨u, hu, ⟨hkeys, hcall⟩, herr⟩ := run_interleaved hcmds ⟨rfl, rfl⟩ hs hs locked hrun ht
  exact ⟨u, hu, hcall.symm, hkeys.symm, herr⟩

end Sys2Proof.Machine
end

section
/-! SUPPORT. The hash pipeline family (45_hash_pipeline.md): what the function of R205 gives for short messages (R199) and
for the two byte orders (R209), and its accumulator as a polynomial (R207). -/

namespace Sys2Proof.Machine

variable {nk : Nat}

/-! ## Short messages (R199) -/

/-- Settles O52: no word of a skipped message is folded, so the finalizer gets the seeded key and the length. -/
theorem shortTagsDependOnLengthAlone : Obligations.ShortTagsDependOnLengthAlone := by
  unfold Obligations.ShortTagsDependOnLengthAlone
  intro k M₁ M₂ seed be₁ be₂ hlen hshort
  have hacc (M : List Byte) (be : Bool) (hM : M.length < 16) :
      vhashAcc vhc64 k M seed be = seededKey vhc64 k seed := by
    rw [vhashAcc_no_fold k seed be (.inr hM), Nat.div_eq_of_lt (by omega), fullChunks]
  rw [vhash, vhash, hacc M₁ be₁ hshort, hacc M₂ be₂ (hlen ▸ hshort), hlen]

/-! ## The two byte orders (R209) -/

/-- The message with the bytes of each group of 8 reversed. -/
def groupsReversed (M : List Byte) : List Byte :=
  (List.range M.length).map fun i => M.getD (8 * (i / 8) + (7 - i % 8)) 0#8

theorem groupsReversed_length (M : List Byte) : (groupsReversed M).length = M.length := by
  simp [groupsReversed]

/-- Byte `7 − i` of a reversed group is byte `i` of the group. -/
theorem groupsReversed_getD {M : List Byte} (h : M.length % 8 = 0) (j : Nat) {i : Nat} (hi : i < 8) :
    (groupsReversed M).getD (8 * j + (7 - i)) 0#8 = M.getD (8 * j + i) 0#8 := by
  by_cases hj : 8 * j < M.length
  · have hin : 8 * j + (7 - i) < (groupsReversed M).length := by rw [groupsReversed_length]; omega
    rw [List.getD_eq_getElem _ _ hin]
    simp only [groupsReversed, List.getElem_map, List.getElem_range]
    rw [show 8 * ((8 * j + (7 - i)) / 8) + (7 - (8 * j + (7 - i)) % 8) = 8 * j + i by omega]
  · rw [List.getD_eq_default _ _ (by rw [groupsReversed_length]; omega), List.getD_eq_default _ _ (by omega)]

theorem wordAt_groupsReversed {M : List Byte} (h : M.length % 8 = 0) :
    wordAt true (groupsReversed M) = wordAt false M := by
  funext j
  refine eq_of_lanes fun i hi => ?_
  rw [laneOf_wordAt _ _ _ hi, laneOf_wordAt _ _ _ hi, if_pos rfl, if_neg (by decide), groupsReversed_getD h j hi]

section
variable {cfg : Config.Cfg} {k : Sized.KeyStore nk} {M₁ M₂ : List Byte} {be₁ be₂ : Bool}

theorem fullChunks_congr (hwords : wordAt be₁ M₁ = wordAt be₂ M₂) (spk : DWord) (n : Nat) :
    fullChunks cfg k be₁ M₁ spk n = fullChunks cfg k be₂ M₂ spk n := by
  induction n with
  | zero => rfl
  | succ n ih => simp only [fullChunks, chunkNh, hwords, ih]

/-- The function of R205 reads the message through its words and its length alone. -/
theorem vhash_congr (hwords : wordAt be₁ M₁ = wordAt be₂ M₂) (hlen : M₁.length = M₂.length) (seed : Word) :
    vhash cfg k M₁ seed be₁ = vhash cfg k M₂ seed be₂ := by
  simp only [vhash, vhashAcc, chunkNh, hwords, hlen, fullChunks_congr hwords]

end

theorem tagBeat_narrow_big (tag : Word) :
    tagBeat true true tag = (bswap32 ((tagBeat false true tag).setWidth 32)).setWidth 64 := by
  have hlow : ((tag.extractLsb' 0 32).setWidth 64).setWidth 32 = tag.extractLsb' 0 32 :=
    BitVec.setWidth_setWidth_of_le _ (by decide)
  exact congrArg (fun x => (bswap32 x).setWidth 64) hlow.symm

/-- Settles O55: the reversed message has the same words in the other byte order. -/
theorem endianSymmetry : Obligations.EndianSymmetry := by
  unfold Obligations.EndianSymmetry
  intro cfg k M seed hM
  exact ⟨vhash_congr (wordAt_groupsReversed hM) (groupsReversed_length M) seed, fun tag =>
    ⟨rfl, tagBeat_narrow_big tag⟩⟩

/-! ## The accumulator as a polynomial (R207) -/

theorem chunkNh_lt (k : Sized.KeyStore nk) (be : Bool) (M : List Byte) (c nw : Nat) :
    pairValue (chunkNh vhc64 k be M c nw) < 2 ^ 126 := by
  rw [chunkNh, pairValue_and_m62]
  exact Nat.mod_lt _ (by decide)

theorem polyFold_modEq {spk h : DWord} (a : DWord) (hkh : spk.1.toNat < 2 ^ 61) (hkl : spk.2.toNat < 2 ^ 61)
    (hh : pairValue h < 2 ^ 126) :
    pairValue (polyFold spk a h) ≡ pairValue a * pairValue spk + pairValue h [MOD 2 ^ 127 - 1] := by
  have hm : h.1.toNat ≤ 2 ^ 62 - 1 := by unfold pairValue at hh; omega
  exact (polyStep_value a.1 a.2 spk.1 spk.2 h.1 h.2 hkh hkl hm).1

/-- The add form does not wrap: both pairs are below 2^126. -/
theorem add128_masked {spk h : DWord} (hkh : spk.1.toNat < 2 ^ 61) (hh : pairValue h < 2 ^ 126) :
    pairValue (add128 h.1 h.2 spk.1 spk.2) = pairValue h + pairValue spk := by
  have hkl := spk.2.isLt
  have hspk : pairValue spk < 2 ^ 126 := by unfold pairValue; omega
  have hsum : pairValue h + pairValue spk < 2 ^ 128 := by omega
  exact (add128_value ..).trans (Nat.mod_eq_of_lt hsum)

/-- The polynomial of R207 in the values `N 0` to `N (n − 1)` at `K`, with leading coefficient 1. -/
def monicPoly (N : Nat → Nat) (K n : Nat) : Nat := (∑ c ∈ Finset.range n, N c * K ^ (n - 1 - c)) + K ^ n

theorem monicPoly_one (N : Nat → Nat) (K : Nat) : monicPoly N K 1 = N 0 + K := by simp [monicPoly]

/-- Horner's rule. -/
theorem monicPoly_succ (N : Nat → Nat) (K n : Nat) : monicPoly N K (n + 1) = monicPoly N K n * K + N n := by
  have hterm : ∀ c ∈ Finset.range n, N c * K ^ (n + 1 - 1 - c) = N c * K ^ (n - 1 - c) * K := fun c hc => by
    have : c < n := Finset.mem_range.1 hc
    rw [mul_assoc, ← pow_succ, show n - 1 - c + 1 = n + 1 - 1 - c by omega]
  rw [monicPoly, monicPoly, Finset.sum_range_succ, Finset.sum_congr rfl hterm, ← Finset.sum_mul, Nat.add_sub_cancel,
    Nat.sub_self, pow_zero, pow_succ]
  ring

theorem monicPoly_congr {N N' : Nat → Nat} (K : Nat) {n : Nat} (h : ∀ c < n, N c = N' c) :
    monicPoly N K n = monicPoly N' K n := by
  unfold monicPoly
  rw [Finset.sum_congr rfl fun c hc => by rw [h c (Finset.mem_range.1 hc)]]

/-- A fold of chunk `n` onto the polynomial in the chunks before it. -/
theorem polyFold_monicPoly {spk a h : DWord} {N : Nat → Nat} {n : Nat} (hkh : spk.1.toNat < 2 ^ 61)
    (hkl : spk.2.toNat < 2 ^ 61) (hh : pairValue h < 2 ^ 126) (hN : N n = pairValue h)
    (ha : pairValue a ≡ monicPoly N (pairValue spk) n [MOD 2 ^ 127 - 1]) :
    pairValue (polyFold spk a h) ≡ monicPoly N (pairValue spk) (n + 1) [MOD 2 ^ 127 - 1] := by
  rw [monicPoly_succ, hN]
  exact (polyFold_modEq a hkh hkl hh).trans ((ha.mul_right _).add_right _)

section
variable (k : Sized.KeyStore nk) (be : Bool) (M : List Byte) (seed : Word)

/-- The full chunks: the add form starts the polynomial and each `poly_step` is a step of Horner's rule. -/
theorem fullChunks_modEq (n : Nat) :
    pairValue (fullChunks vhc64 k be M (seededKey vhc64 k seed) (n + 1)) ≡
      monicPoly (fun c => pairValue (chunkNh vhc64 k be M c 16)) (pairValue (seededKey vhc64 k seed)) (n + 1)
      [MOD 2 ^ 127 - 1] := by
  have hkh := seededKey_fst_lt vhc64 k seed
  have hkl := seededKey_snd_lt vhc64 k seed
  induction n with
  | zero =>
    rw [monicPoly_one, ← add128_masked hkh (chunkNh_lt k be M 0 16)]
    rfl
  | succ n ih => exact polyFold_monicPoly hkh hkl (chunkNh_lt k be M (n + 1) 16) rfl ih

/-- A message of 16 to 127 bytes has one chunk, folded onto the seeded key itself. -/
theorem vhashAcc_modEq_of_lt (h16 : 16 ≤ M.length) (h128 : M.length < 128) :
    pairValue (vhashAcc vhc64 k M seed be) ≡
      pairValue (seededKey vhc64 k seed) * pairValue (seededKey vhc64 k seed) +
        pairValue (chunkNh vhc64 k be M 0 (2 * ((M.length + 15) / 16))) [MOD 2 ^ 127 - 1] := by
  have hmod : M.length % 128 = M.length := Nat.mod_eq_of_lt h128
  rw [vhashAcc_fold k seed be (by omega) h16, hmod, Nat.div_eq_of_lt h128]
  exact polyFold_modEq _ (seededKey_fst_lt vhc64 k seed) (seededKey_snd_lt vhc64 k seed) (chunkNh_lt ..)

/-- The words that NH takes of chunk `c`: 16 of a full chunk, whole pairs of the rest (R205). -/
def foldedWords (c : Nat) : Nat := if c < M.length / 128 then 16 else 2 * ((M.length % 128 + 15) / 16)

/-- A message of 128 bytes or more: its last chunk, if it is partial, is one more step of Horner's rule. -/
theorem vhashAcc_modEq_of_ge (h128 : 128 ≤ M.length) :
    pairValue (vhashAcc vhc64 k M seed be) ≡
      monicPoly (fun c => pairValue (chunkNh vhc64 k be M c (foldedWords M c))) (pairValue (seededKey vhc64 k seed))
        ((M.length + 127) / 128) [MOD 2 ^ 127 - 1] := by
  have hfull := fullChunks_modEq k be M seed (M.length / 128 - 1)
  rw [Nat.sub_add_cancel (by omega)] at hfull
  have hwords : ∀ c < M.length / 128, pairValue (chunkNh vhc64 k be M c 16) =
      pairValue (chunkNh vhc64 k be M c (foldedWords M c)) := fun c hc => by rw [foldedWords, if_pos hc]
  rw [monicPoly_congr _ hwords] at hfull
  by_cases hrem : M.length % 128 = 0
  · rw [vhashAcc_no_fold k seed be (.inl hrem), show (M.length + 127) / 128 = M.length / 128 by omega]
    exact hfull
  · rw [vhashAcc_fold k seed be (by omega) (by omega), show (M.length + 127) / 128 = M.length / 128 + 1 by omega]
    refine polyFold_monicPoly (seededKey_fst_lt vhc64 k seed) (seededKey_snd_lt vhc64 k seed) (chunkNh_lt ..) ?_ hfull
    rw [foldedWords, if_neg (lt_irrefl _)]

end

/-- Settles O56. -/
theorem accumulatorIsAPolynomial : Obligations.AccumulatorIsAPolynomial := by
  unfold Obligations.AccumulatorIsAPolynomial
  intro k be M seed spk K N
  refine ⟨fun n hn => ?_, vhashAcc_modEq_of_lt k be M seed, vhashAcc_modEq_of_ge k be M seed⟩
  obtain ⟨m, rfl⟩ := Nat.exists_eq_add_of_le' hn
  exact fullChunks_modEq k be M seed m

end Sys2Proof.Machine
end

section
/-! SUPPORT. The system family (46_system.md): STATUS as a number, the commands NOP, RD, CLRERR and ABORT as exact next
states, and what a packet can do while an error is recorded. -/

namespace Sys2Proof.Machine

/-! ## The readable registers (R231; 10_state.md R26) -/

/-- STATUS as the sum of its fields, each at its bit position (10_state.md R26). -/
theorem statusWord_toNat {nk : Nat} (s : Sized.State nk) :
    (statusWord s).toNat = s.keys.kv.toNat + 2 * s.call.phase.code.toNat + 8 * s.err.toNat + 16 * s.ecode.toNat +
      256 * s.call.be.toNat + 512 * s.call.tagw.toNat := by
  simp only [statusWord, append_toNat, BitVec.toNat_ofBool, BitVec.toNat_ofNat]
  omega

/-! ## The commands (R230 to R232; 45_hash_pipeline.md R202) -/

theorem exec_nop (s : State) : exec .nop s = .next s := rfl

theorem exec_rd (sel : RdSel) (s : State) :
    exec (.rd sel) s = .next { s with rsp := s.rsp ++ [readReg vhc64 sel s] } := rfl

theorem exec_clrerr (s : State) : exec .clrerr s = .next { s with err := false, ecode := 0#4, ecmd := 0#32 } := rfl

theorem exec_abort (s : State) : exec .abort s = .next { s with call := Call.zero } := rfl

/-- Settles O20: the word is `readReg`'s, which is a register itself except for STATUS, ID and the widened `ECMD`. -/
theorem rdReturnsTheSelectedRegister : Obligations.RdReturnsTheSelectedRegister := by
  unfold Obligations.RdReturnsTheSelectedRegister
  intro sel s
  refine ⟨_, exec_rd sel s, ?_⟩
  cases sel with
  | rl | rh | len | id => rfl
  | status =>
    refine (statusWord_toNat s).trans ?_
    cases s.call.phase <;> rfl
  | ecmd => exact BitVec.toNat_setWidth_of_le (by decide)

/-- Settles O19: `ClearCall()` leaves `Call.zero`, every per-call register 0 and the phase IDLE. -/
theorem nopClrerrAbortComplete : Obligations.NopClrerrAbortComplete := by
  unfold Obligations.NopClrerrAbortComplete
  exact fun s => ⟨exec_nop s, exec_clrerr s, exec_abort s⟩

/-! ## The error state (R232; 60_exceptions.md R245, R249) -/

/-- While an error is recorded a packet changes nothing, or decodes to a command the gate passes and runs it: no packet
records a second error. -/
theorem execPacket_cases_of_error {p : Packet} {s t : State} (hs : s.err = true) (h : execPacket p s = .next t) :
    t = s ∨ ∃ i, decode p = .ok i ∧ passesGate i = true ∧ exec i s = .next t := by
  unfold execPacket at h
  split at h
  · rw [if_pos hs] at h
    cases h; exact .inl rfl
  next i hi =>
    rw [execCommand_eq, hs, Bool.true_and] at h
    cases hg : passesGate i with
    | false => rw [hg] at h; cases h; exact .inl rfl
    | true => rw [hg] at h; exact .inr ⟨i, hi, hg, h⟩

/-- Settles O13: of the commands that pass the gate only CLRERR writes the error registers. -/
theorem errorStateLeftOnlyByClrerrOrReset : Obligations.ErrorStateLeftOnlyByClrerrOrReset := by
  unfold Obligations.ErrorStateLeftOnlyByClrerrOrReset
  intro s t hs h
  unfold step acceptInput at h
  split at h
  next p rest ha =>
    obtain rfl | ⟨i, hi, hgate, hexec⟩ := execPacket_cases_of_error (s := { s with cmdIn := rest }) hs h
    · exact .inl ⟨hs, rfl, rfl⟩
    · by_cases hclr : i = .clrerr
      · exact .inr (.inr ⟨p, rest, ha, hclr ▸ hi⟩)
      · obtain ⟨herr, hcode, hcmd⟩ := exec_gated_err hclr hgate hexec
        exact .inl ⟨herr.trans hs, hcode, hcmd⟩
  next rest ha => exact .inr (.inl ⟨rest, ha⟩)
  next => cases h; exact .inl ⟨hs, rfl, rfl⟩

end Sys2Proof.Machine
end

section
/-! SUPPORT. The exceptions family (60_exceptions.md): the gate, a packet behind it, what a refused packet leaves, the
state checks of the commands with the error each raises, and the lock against the phase. -/

namespace Sys2Proof.Machine

open Sys2Proof.Safety

/-! ## The gate (R245, R249) -/

theorem passesGate_iff (i : Instr) :
    passesGate i = true ↔ i = .nop ∨ (∃ sel, i = .rd sel) ∨ i = .clrerr ∨ i = .abort := by
  cases i <;> simp [passesGate]

theorem execCommand_of_passesGate {i : Instr} {s : State} (h : passesGate i = true) : execCommand i s = exec i s := by
  simp [execCommand_eq, h]

theorem execCommand_discarded {i : Instr} {s : State} (hs : s.err = true) (h : passesGate i = false) :
    execCommand i s = .next s := by
  simp [execCommand_eq, hs, h]

theorem execPacket_of_decode {p : Packet} {i : Instr} {s : State} (hi : decode p = .ok i) :
    execPacket p s = execCommand i s := by
  simp only [execPacket, hi]

/-- While an error is recorded a packet that decodes to no command the gate passes is discarded, a malformed one
included. -/
theorem execPacket_discarded {p : Packet} {s : State} (hs : s.err = true)
    (h : ∀ i, decode p = .ok i → passesGate i = false) : execPacket p s = .next s := by
  cases hp : decode p with
  | error e => simp only [execPacket, hp, if_pos hs]
  | ok i => rw [execPacket_of_decode hp, execCommand_discarded hs (h i hp)]

/-- Settles O8. -/
theorem gateDiscardsWhileErrorRecorded : Obligations.GateDiscardsWhileErrorRecorded := by
  unfold Obligations.GateDiscardsWhileErrorRecorded
  intro s p rest hin hs hout
  rw [step_of_packet hin]
  refine execPacket_discarded hs fun i hi => ?_
  obtain ⟨hnop, hrd, hclrerr, habort⟩ := hout i hi
  rw [← Bool.not_eq_true, passesGate_iff]
  rintro (rfl | ⟨sel, rfl⟩ | rfl | rfl)
  exacts [hnop rfl, hrd sel rfl, hclrerr rfl, habort rfl]

/-- Settles O7: with no error recorded the gate is open to every command, with one to the four commands named. -/
theorem stepRunsDecodedCommand : Obligations.StepRunsDecodedCommand := by
  unfold Obligations.StepRunsDecodedCommand
  intro s p rest i hin hi hgate
  rw [step_of_packet hin, execPacket_of_decode hi]
  obtain hs | hpass := hgate
  · exact execCommand_of_no_error hs
  · exact execCommand_of_passesGate ((passesGate_iff i).2 hpass)

/-! ## A refused packet (R246, R248) -/

/-- A packet that leaves an error recorded where there was none has raised it, and has done nothing else: by its form,
or by the rule of its command, whose header word is the packet's own. -/
theorem execPacket_raise {p : Packet} {s t : State} (hs : s.err = false) (h : execPacket p s = .next t)
    (ht : t.err = true) : ∃ e, t = raiseError e p.header s := by
  obtain rfl | hform | ⟨i, hi, hexec⟩ := execPacket_cases h
  · rw [hs] at ht; contradiction
  · exact hform
  · rw [← decode_ok_headerWord hi]
    exact exec_raise hs hexec ht

/-- Settles O10. -/
theorem refusedPacketHasNoOtherEffect : Obligations.RefusedPacketHasNoOtherEffect := by
  unfold Obligations.RefusedPacketHasNoOtherEffect
  intro s t p rest hin hs h ht
  rw [step_of_packet hin] at h
  obtain ⟨e, he⟩ := execPacket_raise (s := { s with cmdIn := rest }) hs h ht
  rw [header_eq_setWidth] at he
  exact ⟨⟨e, he⟩, ht⟩

/-- Error entry writes nothing that CLRERR does not put back, when the error registers were clear. -/
theorem clearError_raiseError (e : ErrCode) (hdr : BitVec 32) {s : State} (hs : s.err = false) (hcode : s.ecode = 0#4)
    (hcmd : s.ecmd = 0#32) : clearError (raiseError e hdr s) = s := by
  simp only [clearError, raiseError, ← hs, ← hcode, ← hcmd]

/-- Settles O12: a refusal is error entry alone, and CLRERR is the way back from it. -/
theorem clrerrUndoesARefusal : Obligations.ClrerrUndoesARefusal := by
  unfold Obligations.ClrerrUndoesARefusal
  intro i s t hs hcode hcmd h ht
  obtain ⟨e, rfl⟩ := exec_raise hs h ht
  exact congrArg _ (clearError_raiseError e _ hs hcode hcmd)

/-! ## The state checks (R241, R244) -/

theorem checkOr_refused {nk : Nat} {refuse : Bool} {e : ErrCode} {i : Instr} {s : Sized.State nk} {go : Sized.Result nk}
    (h : refuse = true) : checkOr refuse e i s go = .next (raiseError e (headerWord i) s) := if_pos h

theorem checkOr_passed {nk : Nat} {refuse : Bool} {e : ErrCode} {i : Instr} {s : Sized.State nk} {go : Sized.Result nk}
    (h : refuse = false) : checkOr refuse e i s go = go := if_neg (by simp [h])

section
variable {s : State}

/-- The commands that write the key store check the lock first (41_key_store.md R141 to R144). -/
theorem exec_keyLock {i : Instr} (hi : i.opcode ∈ [Opcode.ldnhk, .ldpk, .ldl3k, .keydone])
    (locked : s.keys.kv = true) : exec i s = .next (raiseError .keyLock (headerWord i) s) := by
  cases i with
  | ldnhk | ldpk | ldl3k | keydone => exact checkOr_refused locked
  | nop | rd | clrerr | keyclr | mul | add128 | fma | nh | poly | l3 | start | push | final | abort | rdtag =>
    exact absurd hi (by simp [Instr.opcode])

/-- LDL3K checks the range of its word behind the lock (41_key_store.md R143). -/
theorem exec_ldl3k_keyRange (half : Half) {w : Word} (unlocked : s.keys.kv = false) (hw : Config.p64 ≤ w) :
    exec (.ldl3k half w) s = .next (raiseError .keyRange (headerWord (.ldl3k half w)) s) :=
  (checkOr_passed unlocked).trans (checkOr_refused (decide_eq_true hw))

/-- The commands that need the keys check that the store is locked first (42_nh.md R167; 45_hash_pipeline.md R191). -/
theorem exec_noKey {i : Instr} (hi : i.opcode ∈ [Opcode.nh, .start]) (unlocked : s.keys.kv = false) :
    exec i s = .next (raiseError .noKey (headerWord i) s) := by
  cases i with
  | nh | start => exact checkOr_refused (by simp [unlocked])
  | nop | rd | clrerr | ldnhk | ldpk | ldl3k | keydone | keyclr | mul | add128 | fma | poly | l3 | push | final | abort
  | rdtag => exact absurd hi (by simp [Instr.opcode])

/-- START checks the phase behind the lock (45_hash_pipeline.md R191). -/
theorem exec_start_inCall (be tagw : Bool) (seed : Word) (locked : s.keys.kv = true)
    (inCall : s.call.phase.inCall = true) :
    exec (.start be tagw seed) s = .next (raiseError .phase (headerWord (.start be tagw seed)) s) :=
  (checkOr_passed (by simp [locked])).trans (checkOr_refused inCall)

theorem exec_keyclr_inCall (inCall : s.call.phase.inCall = true) :
    exec .keyclr s = .next (raiseError .phase (headerWord .keyclr) s) :=
  checkOr_refused inCall

theorem exec_final_noCall (noCall : s.call.phase.inCall = false) :
    exec .final s = .next (raiseError .phase (headerWord .final) s) :=
  checkOr_refused (by simp [noCall])

theorem exec_rdtag_refused (notDone : s.call.phase ≠ .done) :
    exec .rdtag s = .next (raiseError .phase (headerWord .rdtag) s) :=
  checkOr_refused (decide_eq_true notDone)

end

/-- Settles O11: one lemma for each check; the second check of LDL3K and of START is reached when the lock lets it. -/
theorem stateChecksRaiseTheirError : Obligations.StateChecksRaiseTheirError := by
  unfold Obligations.StateChecksRaiseTheirError
  intro s _ raised
  refine ⟨fun locked => ?_, fun unlocked => ?_, fun hphase => ?_, fun notMsg nb beat => exec_push_refused notMsg,
    fun hphase => exec_final_noCall ((inCall_eq_false_iff _).2 hphase), exec_rdtag_refused⟩
  · have refused (i : Instr) (hi : i.opcode ∈ [Opcode.ldnhk, .ldpk, .ldl3k, .keydone]) : exec i s = raised 4 i :=
      exec_keyLock hi locked
    exact ⟨fun _ _ => refused _ (by simp [Instr.opcode]), fun _ _ => refused _ (by simp [Instr.opcode]),
      fun _ _ => refused _ (by simp [Instr.opcode]), refused _ (by simp [Instr.opcode])⟩
  · refine ⟨fun half w hw => ?_, fun m => exec_noKey (by simp [Instr.opcode]) unlocked,
      fun be tagw seed => exec_noKey (by simp [Instr.opcode]) unlocked⟩
    have above : Config.p64 ≤ w := BitVec.not_lt.1 fun below => Nat.not_lt.2 hw ((lt_p64_iff w).1 below)
    exact exec_ldl3k_keyRange half unlocked above
  · have inCall := (inCall_eq_true_iff _).2 hphase
    exact ⟨fun locked be tagw seed => exec_start_inCall be tagw seed locked inCall, exec_keyclr_inCall inCall⟩

/-! ## The lock and the phase (R261) -/

/-- Every command keeps the phase IDLE while the key store is unlocked: START needs the lock, PUSH and FINAL a call, and
KEYCLR, which opens the lock, clears the call. -/
theorem unlockedIdle_of_effect {i : Instr} {s t : State} (hs : UnlockedIdle s) (h : CommandEffect s i t) :
    UnlockedIdle t := by
  cases h with
  | refused | nop | rd | clrerr | unit | rdtag => exact hs
  | keyWrite k _ unlocked => exact fun _ => hs unlocked
  | keyclr | abort => exact fun _ => rfl
  | start be tagw seed locked => exact fun unlocked => absurd (locked.symm.trans unlocked) (by decide)
  | push nb beat inMsg => exact fun unlocked => absurd (inMsg.symm.trans (hs unlocked)) (by decide)
  | final inCall => exact fun unlocked => by rw [hs unlocked] at inCall; contradiction

/-- Settles O59. -/
theorem unlockedImpliesIdle : Obligations.UnlockedImpliesIdle := by
  unfold Obligations.UnlockedImpliesIdle
  have hreset : UnlockedIdle State.reset := fun _ => rfl
  exact ⟨hreset, fun s t hs h => step_keeps (P := UnlockedIdle) (fun _ _ hs => hs) hreset (fun _ _ _ hs => hs)
    (fun _ _ _ _ => unlockedIdle_of_effect) hs h⟩

end Sys2Proof.Machine
end

section
/-! SUPPORT. The reset and hazards family (70_reset_and_hazards.md): what arrives of a packet whose last beat has not
come, and the step for each thing that can arrive besides a packet. -/

namespace Sys2Proof.Machine

/-! ## A packet partly received (R270; 20_memory.md R63) -/

/-- A reset arrives through any number of beats without `cmd_last`, the header beat among them. -/
theorem arrival_rst (ds : List Word) (rest : List PortInput) :
    arrival (ds.map (fun d => .beat d false) ++ .rst :: rest) = .reset rest := by
  cases ds with
  | nil => rfl
  | cons hdr ds => exact takePayload_rst hdr ds [] rest

/-- Beats without `cmd_last` are no packet yet. -/
theorem arrival_waiting (ds : List Word) : arrival (ds.map (fun d => .beat d false)) = .waiting := by
  cases ds with
  | nil => rfl
  | cons hdr ds => exact takePayload_waiting hdr ds []

/-! ## The step without a packet (R271, R281, R282) -/

theorem step_of_reset {s : State} {rest : List PortInput} (h : arrival s.cmdIn = .reset rest) :
    step s = .next { State.reset with cmdIn := rest } := by
  simp only [step, acceptInput, h, State.reset]

theorem step_of_waiting {s : State} (h : arrival s.cmdIn = .waiting) : step s = .next s := by
  simp only [step, acceptInput, h]

/-- Settles O14: this hardware's step is that of the instance at its configuration. -/
theorem everyStepHasANextState : Obligations.EveryStepHasANextState := by
  unfold Obligations.EveryStepHasANextState
  exact acceptInput_next vhc64

/-- Settles O16: the beats before the reset leave nothing behind, since only a complete packet is executed. -/
theorem resetDropsThePartialPacket : Obligations.ResetDropsThePartialPacket := by
  unfold Obligations.ResetDropsThePartialPacket
  intro s ds rest hin
  have hreset : arrival s.cmdIn = .reset rest := hin ▸ arrival_rst ds rest
  exact step_of_reset hreset

/-- Settles O17. -/
theorem incompletePacketWaits : Obligations.IncompletePacketWaits := by
  unfold Obligations.IncompletePacketWaits
  intro s ds hin
  have hwaiting : arrival s.cmdIn = .waiting := hin ▸ arrival_waiting ds
  exact step_of_waiting hwaiting

end Sys2Proof.Machine
end
